-- ==== Sys2Proof/Word.lean ====
section
/-! DEFINITION. The widths of the machine: a byte (spec/10_state.md R27), a Block (R26), the byte counter's value (R22).

A Block is held as its value `val(B)`, which R26 puts in one-to-one correspondence with the byte array `B[0..19]`;
`Machine.byteAt` reads `B[j]` and `Machine.blockOf` builds a Block from its bytes (log 2). -/

namespace Sys2Proof

/-- An unsigned 8-bit quantity; bit 0 has weight 1 (R27). -/
abbrev Byte := BitVec 8

/-- A 160-bit Block, as its value: Block bit `t` is bit `t mod 8` of byte `t div 8` (R26). -/
abbrev Block := BitVec 160

/-- The value of the byte counter, 64 bits unsigned (R22). -/
abbrev Count := BitVec 64

/-- The accumulator buffer's 160 bytes `ACC[0..159]` (R21). -/
abbrev AccBuffer := Vector Byte 160

/-- The block set's 8 Blocks `BLK[0..7]` (R23). -/
abbrev BlockSet := Vector Block 8

end Sys2Proof
end

