-- ==== Sys2Proof/Config.lean ====
section
/-! DEFINITION. What is fixed for the machine and is not state (spec/00_scope.md R6, R8, R11): the constants, and the two
parameters the spec leaves to the model with a normative value each. There is no free value: every operation is a
deterministic function of the state and its operands (R11). -/

namespace Sys2Proof.Config

/-- `BLOCK_BITS`: bits of a Block (R6). -/
abbrev blockBits : Nat := 160

/-- `BLOCK_BYTES`: bytes of a Block (R6). -/
abbrev blockBytes : Nat := 20

/-- `NBLOCKS`: Blocks in the block set (R6). -/
abbrev nblocks : Nat := 8

/-- `ACC_BYTES`: bytes of the accumulator buffer (R6). -/
abbrev accBytes : Nat := 160

/-- `ACC_BITS`: bits of the accumulator buffer (R6). -/
abbrev accBits : Nat := 1280

/-- `CNT_BITS`: width of the byte counter (R6). -/
abbrev cntBits : Nat := 64

/-- `DIGEST_BYTES`: bytes of the digest (R6). -/
abbrev digestBytes : Nat := 20

/-- `CHUNK`: bytes of a chunk that does not end Accumulation, and the greatest chunk length (R6). -/
abbrev chunk : Nat := 160

/-- `STEP`: the multiplier of the scatter formula (R6). -/
abbrev scatterStep : Nat := 11

/-- `SCATTER_MOD`: the modulus the document writes in the scatter formula (R6; spec/90_conflicts.md C1). -/
abbrev scatterMod : Nat := 1280

/-- The greatest value of the byte counter, `2^64 - 1` (R22). -/
abbrev countMax : Nat := 2 ^ 64 - 1

/-! ### Facts of the configuration (R7), and the widths of Word.lean as these constants give them -/

/-- `ACC_BITS = NBLOCKS * BLOCK_BITS` (R7). -/
theorem accBits_eq : accBits = nblocks * blockBits := rfl

/-- `ACC_BYTES = NBLOCKS * BLOCK_BYTES` (R7). -/
theorem accBytes_eq : accBytes = nblocks * blockBytes := rfl

/-- A byte has eight bits, in the accumulator buffer and in a Block. -/
theorem bits_of_bytes : accBits = 8 * accBytes ∧ blockBits = 8 * blockBytes := ⟨rfl, rfl⟩

theorem block_width : Block = BitVec blockBits := rfl

theorem count_width : Count = BitVec cntBits ∧ countMax = 2 ^ cntBits - 1 := ⟨rfl, rfl⟩

theorem accBuffer_size : AccBuffer = Vector Byte accBytes := rfl

theorem blockSet_size : BlockSet = Vector Block nblocks := rfl

theorem digest_is_block : digestBytes = blockBytes := rfl

/-- `LEN_ORDER`: which counter byte the length block's byte `j` (0..7) holds (R8, spec/92_eei_decisions.md D2). -/
inductive LenOrder where
  /-- byte `j` is counter byte `j` (normative) -/
  | value
  /-- byte `j` is counter byte `7 - j` -/
  | swapped
deriving DecidableEq, Repr

/-- `OVERFLOW`: what an ABSORB does that would carry the counter past `2^64 - 1` (R8, D13). -/
inductive Overflow where
  /-- it is rejected with `E_OVERFLOW` (normative) -/
  | fault
  /-- the counter is kept modulo `2^64` -/
  | wrap
deriving DecidableEq, Repr

/-- The two open parameters together (R8). -/
structure Params where
  lenOrder : LenOrder
  overflow : Overflow
deriving DecidableEq, Repr

/-- The values the spec fixes as normative (R8). -/
def normative : Params := { lenOrder := .value, overflow := .fault }

end Sys2Proof.Config
end

