-- ==== Sys2Proof/Machine/Block.lean ====
section
/-! DEFINITION. Byte order in one place, and the six datapath functions of spec/40_block_primitives.md R110 to R115 as pure
functions on Blocks. -/

namespace Sys2Proof.Machine

/-- Byte `j` of a value: bits `8j+7 .. 8j` (spec/10_state.md R26, spec/20_memory.md R53, R54). -/
def byteOf {w : Nat} (v : BitVec w) (j : Nat) : Byte := v.extractLsb' (8 * j) 8

/-- The value whose byte `j` is entry `j` of the list, index 0 low-order (R26). -/
def ofBytes (w : Nat) : List Byte → BitVec w
  | [] => 0
  | b :: rest => (ofBytes w rest <<< 8) ||| b.setWidth w

/-- The first `k` bytes of a value, index 0 first. -/
def toBytes {w : Nat} (k : Nat) (v : BitVec w) : List Byte := (List.range k).map (byteOf v)

/-- `B[j]` (R26). -/
def byteAt (b : Block) (j : Fin 20) : Byte := byteOf b j

/-- The Block with `B[j] = f j` for every `j` (R26). -/
def blockOf (f : Fin 20 → Byte) : Block := ofBytes 160 (List.ofFn f)

/-- `B[o] <- x`: one byte written, the others kept. -/
def setByte (b : Block) (o : Fin 20) (x : Byte) : Block := blockOf fun j => if j = o then x else byteAt b j

/-- ZERO(): every byte zero (R110). -/
def zeroBlock : Block := 0

/-- XOR(A, B): `C[j] = A[j] ^ B[j]`, equally `val(C) = val(A) ^ val(B)` (R111). -/
def xorBlock (a b : Block) : Block := a ^^^ b

/-- The exclusive or of a list of Blocks; of none, the zero Block (spec/00_scope.md, notation). -/
def xorAll (l : List Block) : Block := l.foldr xorBlock zeroBlock

/-- ROTL(B, n) on the 160-bit value, with the count below 160 by its type (R112, spec/92_eei_decisions.md D26). -/
def rotl (b : Block) (n : Fin 160) : Block :=
  if n = 0 then b else (b <<< n.val) ||| (b >>> (160 - n.val))

/-- BREV(B): `C[j] = B[19 - j]` (R113). -/
def brev (b : Block) : Block := blockOf fun j => byteAt b j.rev

/-- EXT8(b): the byte at index 0, every other byte zero (R114). -/
def ext8 (x : Byte) : Block := blockOf fun j => if j = 0 then x else 0

/-- EXT64(L): the counter's eight bytes in byte indices 0..7 in the order of `LEN_ORDER`, indices 8..19 zero (R115, R54). -/
def ext64 (order : Config.LenOrder) (l : Count) : Block :=
  blockOf fun j =>
    if j.val < 8 then
      match order with
      | .value => byteOf l j
      | .swapped => byteOf l (7 - j)
    else 0

end Sys2Proof.Machine
end

