-- ==== Sys2Proof/Syntax.lean ====
section
/-! DEFINITION. The fourteen operations of spec/30_encoding.md R80, one constructor per row of spec/opcode_table.json, and
the error names of spec/60_exceptions.md R234. -/

namespace Sys2Proof

/-- The operations of the hardware (R80): five host commands, three engine steps, six datapath functions. A datapath
function carries its arguments, as opcode_table.json lists them. -/
inductive Instr where
  /-- INIT, begin a computation (R130) -/
  | init
  /-- ABSORB `n`, `d`, fold a chunk into the accumulator (R131); `n` and `d` are apart because the command carries both (R81) -/
  | absorb (n : Nat) (d : List Byte)
  /-- ABORT, the stream failed (R231) -/
  | abort
  /-- STATUS, return the phase code (R193) -/
  | status
  /-- RDIGEST, return the digest (R194) -/
  | rdigest
  /-- SCATTER, the engine's stage 2 (R150) -/
  | scatter
  /-- COMBINE, the engine's stage 3 (R170) -/
  | combine
  /-- FOLD, the engine's stage 4 (R190) -/
  | fold
  /-- ZERO() (R110) -/
  | zero
  /-- XOR(A, B) (R111) -/
  | xor (a b : Block)
  /-- ROTL(B, n) (R112) -/
  | rotl (b : Block) (n : Nat)
  /-- BREV(B) (R113) -/
  | brev (b : Block)
  /-- EXT8(b) (R114) -/
  | ext8 (b : Byte)
  /-- EXT64(L) (R115) -/
  | ext64 (l : Count)
deriving DecidableEq, Repr

/-- The three classes of operations (R80). -/
inductive OpClass where
  | hostCommand
  | engineStep
  | datapath
deriving DecidableEq, Repr

/-- The errors a host command is rejected with (R234). -/
inductive ErrorCode where
  | eOpcode
  | eLength
  | ePhase
  | eOverflow
deriving DecidableEq, Repr

end Sys2Proof
end

