-- ==== Sys2Proof/Machine/State.lean ====
section
/-! DEFINITION. The state of one engine (spec/10_state.md R20 to R25) with the outside world's side of its command
interface as plain data (log 5), the reasons to stop, and the state after reset (R32, spec/70_reset_and_hazards.md R260). -/

namespace Sys2Proof.Machine

/-- `PHASE`, the sequencing state (R25). -/
inductive Phase where
  | start
  | accumulating
  | scattering
  | combining
  | folding
  | done
  | aborted
deriving DecidableEq, Repr

/-- What a data register holds: the spec's mark `undef`, "holds no value" (R30), or a value. `undef` is a state of the
spec: reset, INIT, ABORT and FOLD write it (R31). -/
inductive Reg (α : Type) where
  | undef
  | val (v : α)
deriving DecidableEq, Repr

/-- The data registers by name (R20). -/
inductive RegName where
  | acc
  | cnt
  | blk
  | res
deriving DecidableEq, Repr

/-- The status byte of a response (spec/30_encoding.md R84): `OK`, or the error a command is rejected with. -/
inductive Status where
  | ok
  | error (e : ErrorCode)
deriving DecidableEq, Repr

/-- The response to one host command: one status byte, then a payload (R84). -/
structure Response where
  status : Status
  payload : List Byte
deriving DecidableEq, Repr

/-- What the outside world does to the engine, one entry per event (log 5, log 6). -/
inductive Input where
  /-- the host puts bytes on the command port (R81) -/
  | bytes (bs : List Byte)
  /-- the host issues a command as a transaction-level record (R81, spec/20_memory.md R60) -/
  | command (i : Instr)
  /-- it is the engine's turn: it takes the step its phase enables, if any (spec/00_scope.md R10) -/
  | engine
  /-- a datapath function is evaluated on its own (the model's; log 8) -/
  | evaluate (i : Instr)
  /-- the reset input is asserted (R260) -/
  | reset
deriving DecidableEq, Repr

/-- The engine's five registers (R20), then the model's own record of its interface (log 5, log 8). -/
structure State where
  /-- `PHASE` (R25) -/
  phase : Phase
  /-- `ACC[0..159]`, the accumulator buffer (R21) -/
  acc : Reg AccBuffer
  /-- `CNT`, the byte counter (R22) -/
  cnt : Reg Count
  /-- `BLK[0..7]`, the block set (R23) -/
  blk : Reg BlockSet
  /-- `RES`, the running result and then the digest (R24) -/
  res : Reg Block
  /-- model: what the outside world still does, in order -/
  input : List Input
  /-- model: command bytes that have arrived and are not consumed (R92) -/
  port : List Byte
  /-- model: the responses sent to the host, oldest first (R84) -/
  responses : List Response
  /-- model: the Blocks returned by datapath functions evaluated on their own, oldest first -/
  values : List Block
deriving DecidableEq, Repr

/-- Why the machine stops with a fault. -/
inductive Fault where
  /-- A register that holds `undef` was read (R30, spec/93_implementation_defined.md U2). Raised by ABSORB, RDIGEST,
  SCATTER, COMBINE and FOLD in a state whose phase promises a register that is not there; no run from reset reaches one.
  Safe: the machine stops where nothing is known. -/
  | undefRead (r : RegName)
deriving DecidableEq, Repr

/-- Why the machine gives an operation no meaning. -/
inductive Refusal where
  /-- Raised by an arm of `exec` for an operation the model does not cover yet. Safe. -/
  | notModelled (mnemonic : String)
  /-- Raised by SCATTER, COMBINE and FOLD asked for in a phase that does not enable them: R25 has no such transition
  (log 11). Safe: the engine never takes such a step. -/
  | stepNotEnabled (phase : Phase)
  /-- Raised by ROTL with a count of 160 or more, outside the function's domain (spec/40_block_primitives.md R112,
  spec/93_implementation_defined.md U3; log 12). Safe: it is refused and not reduced. -/
  | rotateCountOutOfDomain (n : Nat)
deriving DecidableEq, Repr

/-- The state after hardware reset: `PHASE = Start` and every data register `undef` (R32, R260); nothing has arrived from
the host and nothing has been sent (log 5). -/
def State.reset : State where
  phase := .start
  acc := .undef
  cnt := .undef
  blk := .undef
  res := .undef
  input := []
  port := []
  responses := []
  values := []

end Sys2Proof.Machine
end

