-- ==== Sys2Proof/Machine/Operands.lean ====
section
/-! DEFINITION. Operand forms and the scatter map: the chunk of ABSORB (spec/30_encoding.md R83), the count of ROTL (R88),
`SIGMA` (spec/42_bit_scatter.md R151), and the parameter values in force (spec/00_scope.md R8). -/

namespace Sys2Proof.Machine

/-- The value of `LEN_ORDER` the machine runs with: the normative one (R8; log 3). -/
def lenOrderInForce : Config.LenOrder := Config.normative.lenOrder

/-- The value of `OVERFLOW` the machine runs with: the normative one (R8; log 4). -/
def overflowInForce : Config.Overflow := Config.normative.overflow

/-- Whether ABSORB's operands are a chunk: 0..160 bytes, as many as the length says (R81, R86). -/
def chunkOk (n : Nat) (d : List Byte) : Bool := decide (n ≤ Config.chunk) && d.length == n

/-- The chunk byte at offset `j`, zero past the chunk's end: the unfilled tail does not alter the accumulator (R83, R131). -/
def chunkByte (d : List Byte) (j : Nat) : Byte := (d[j]?).getD 0

/-- `p = (i * 11) mod 1280` (R151). -/
def scatterPos (i : Fin 160) : Nat := (i.val * Config.scatterStep) % Config.scatterMod

/-- `SIGMA(i) = (k, o)` with `k = p mod 8` and `o = (p div 8) mod 20` (R151; spec/90_conflicts.md C1, C2). -/
def sigma (i : Fin 160) : Fin 8 × Fin 20 :=
  (⟨scatterPos i % Config.nblocks, Nat.mod_lt _ (by decide)⟩, ⟨(scatterPos i / 8) % Config.blockBytes, Nat.mod_lt _ (by decide)⟩)

/-- The accumulator index whose byte slot `(k, o)` receives: `((8 o + k) * 131) mod 160` (R155). -/
def sigmaInv (k : Fin 8) (o : Fin 20) : Fin 160 := ⟨((8 * o.val + k.val) * 131) % Config.accBytes, Nat.mod_lt _ (by decide)⟩

set_option maxRecDepth 4000 in
/-- `11 * 131 = 1` modulo 160: the inverse map's index is scattered to its own slot (R153, R155). -/
theorem sigma_sigmaInv : ∀ (k : Fin 8) (o : Fin 20), sigma (sigmaInv k o) = (k, o) := by decide

set_option maxRecDepth 4000 in
/-- Every index is the inverse map's index of its own slot (R153, R155). -/
theorem sigmaInv_sigma : ∀ i : Fin 160, sigmaInv (sigma i).1 (sigma i).2 = i := by decide

/-- The scatter map as what R153 says it is: a bijection from the accumulator's byte indices onto the slots `(k, o)`, with
the inverse of R155. No byte is dropped and none is duplicated. -/
def scatterMap : Fin Config.accBytes ≃ Fin Config.nblocks × Fin Config.blockBytes where
  toFun := sigma
  invFun slot := sigmaInv slot.1 slot.2
  left_inv := sigmaInv_sigma
  right_inv slot := sigma_sigmaInv slot.1 slot.2

/-- Where bit `b` of accumulator byte `i` goes: bit `8 o + b` of block `k`, `(k, o) = SIGMA(i)` (R154). -/
def scatterBit (x : Fin Config.accBytes × Fin 8) : Fin Config.nblocks × Fin Config.blockBits :=
  ((sigma x.1).1, ⟨8 * (sigma x.1).2.val + x.2.val, by have := (sigma x.1).2.isLt; have := x.2.isLt; simp only [Config.blockBits]; omega⟩)

/-- The accumulator bit that bit `q` of a block receives. -/
def scatterBitInv (x : Fin Config.nblocks × Fin Config.blockBits) : Fin Config.accBytes × Fin 8 :=
  (sigmaInv x.1 ⟨x.2.val / 8, by have := x.2.isLt; simp only [Config.blockBits] at this; omega⟩, ⟨x.2.val % 8, Nat.mod_lt _ (by decide)⟩)

theorem scatterBitInv_scatterBit (x : Fin Config.accBytes × Fin 8) : scatterBitInv (scatterBit x) = x := by
  obtain ⟨i, b⟩ := x
  have hb := b.isLt
  refine Prod.ext ?_ (Fin.ext (by simp only [scatterBitInv, scatterBit]; omega))
  refine Eq.trans (congrArg (sigmaInv (sigma i).1) (Fin.ext ?_)) (sigmaInv_sigma i)
  simp only [scatterBit]
  omega

theorem scatterBit_scatterBitInv (x : Fin Config.nblocks × Fin Config.blockBits) : scatterBit (scatterBitInv x) = x := by
  obtain ⟨k, q⟩ := x
  have h := sigma_sigmaInv k ⟨q.val / 8, by have := q.isLt; simp only [Config.blockBits] at this; omega⟩
  have h1 := congrArg Prod.fst h
  have h2 := congrArg (fun slot => slot.2.val) h
  refine Prod.ext h1 (Fin.ext ?_)
  simp only [scatterBit, scatterBitInv] at h2 ⊢
  omega

/-- Bit Scatter bit by bit, as what R7 says it is: every accumulator bit goes to exactly one (block, bit position) pair and
every such pair receives exactly one accumulator bit. -/
def scatterBitMap : Fin Config.accBytes × Fin 8 ≃ Fin Config.nblocks × Fin Config.blockBits where
  toFun := scatterBit
  invFun := scatterBitInv
  left_inv := scatterBitInv_scatterBit
  right_inv := scatterBit_scatterBitInv

/-- `(11 t) mod 160`, the rotation count of stream byte `t` (spec/45_digest_function.md R210). -/
def rotationOf (t : Nat) : Fin 160 := ⟨(Config.scatterStep * t) % 160, Nat.mod_lt _ (by decide)⟩

end Sys2Proof.Machine
end

