-- ==== Sys2Proof/Machine/Ops.lean ====
section
/-! DEFINITION. The shared operations on the state: one write per field, reading a register that may hold `undef`, sending
a response, rejecting a command, guarding a phase, beginning a computation, entering `Aborted`, and hardware reset. -/

namespace Sys2Proof.Machine

/-- The outcome of one operation or one step. -/
abbrev Result := Host.Outcome State Fault Refusal

/-- `PHASE <- p` (spec/10_state.md R25). -/
def State.setPhase (s : State) (p : Phase) : State := { s with phase := p }

/-- `ACC <- a` (R21). -/
def State.setAcc (s : State) (a : Reg AccBuffer) : State := { s with acc := a }

/-- `CNT <- c` (R22). -/
def State.setCnt (s : State) (c : Reg Count) : State := { s with cnt := c }

/-- `BLK <- b` (R23). -/
def State.setBlk (s : State) (b : Reg BlockSet) : State := { s with blk := b }

/-- `RES <- r` (R24). -/
def State.setRes (s : State) (r : Reg Block) : State := { s with res := r }

/-- What the outside world still does. -/
def State.setInput (s : State) (w : List Input) : State := { s with input := w }

/-- The bytes waiting at the command port. -/
def State.setPort (s : State) (bs : List Byte) : State := { s with port := bs }

/-- The response is sent after those sent before (spec/30_encoding.md R84). -/
def State.respond (s : State) (r : Response) : State := { s with responses := s.responses ++ [r] }

/-- The Block is returned as a datapath function's value (log 8). -/
def State.emit (s : State) (b : Block) : State := { s with values := s.values ++ [b] }

/-- Read a register: a register that holds `undef` faults, and no value is put in its place (R30, U2). -/
def readReg {α : Type} (n : RegName) (r : Reg α) (k : α → Result) : Result :=
  match r with
  | .undef => .fault (.undefRead n)
  | .val v => k v

/-- The command was performed: status `OK` and its payload (R84, spec/60_exceptions.md R234). -/
def accept (payload : List Byte) (s : State) : Result := .next (s.respond { status := .ok, payload := payload })

/-- The command is rejected: the error is the response's status, there is no payload, and neither a register nor the phase
changes (R84, R234, R237). A refusal of the command, not a stop of the engine: the host may go on. -/
def reject (e : ErrorCode) (s : State) : Result := .next (s.respond { status := .error e, payload := [] })

/-- Phases in which INIT is accepted (R130, R234). -/
def acceptsInit : Phase → Bool
  | .start => true
  | .done => true
  | .aborted => true
  | .accumulating => false
  | .scattering => false
  | .combining => false
  | .folding => false

/-- A command of a phase: performed when the phase accepts it, else rejected with `E_PHASE` (R234). -/
def inPhase (ok : Bool) (s : State) (k : Result) : Result := if ok then k else reject .ePhase s

/-- An engine step of a phase: taken in that phase only; in another the hardware has no such transition (R25; log 11). -/
def inStepPhase (p : Phase) (s : State) (k : Result) : Result :=
  if s.phase = p then k else .refused (.stepNotEnabled s.phase)

/-- Entering `Aborted`, the nearest thing this hardware has to taking a trap: nothing is saved, ACC and CNT become `undef`,
and control goes nowhere (R231, R239). -/
def enterAborted (s : State) : State := ((s.setAcc .undef).setCnt .undef).setPhase .aborted

/-- Beginning a computation, which is also the only return from `Aborted` short of reset: ACC and CNT zero, BLK and RES
`undef` (spec/41_accumulation.md R130, R240). -/
def beginComputation (s : State) : State :=
  ((((s.setAcc (.val (Vector.replicate 160 0))).setCnt (.val 0)).setBlk .undef).setRes .undef).setPhase .accumulating

/-- Hardware reset, in any phase: `PHASE <- Start` and every data register `undef`; the bytes of an unfinished command are
dropped, and what was sent stays sent (spec/70_reset_and_hazards.md R260, U13; log 14). -/
def hardReset (s : State) : State :=
  (((((s.setAcc .undef).setCnt .undef).setBlk .undef).setRes .undef).setPhase .start).setPort []

end Sys2Proof.Machine
end

