-- ==== Sys2Proof/Machine/Accumulation.lean ====
section
/-! DEFINITION. Stage 1, Accumulation (spec/41_accumulation.md): INIT and ABSORB; and ABORT, which leaves it
(spec/60_exceptions.md R231). -/

namespace Sys2Proof.Machine

/-- `ACC[j] <- ACC[j] ^ d[j]` for `j < n`, the other bytes kept: all 160 lanes at once (R131, R139). -/
def absorbBytes (a : AccBuffer) (d : List Byte) : AccBuffer := Vector.ofFn fun j => a[j] ^^^ chunkByte d j

/-- INIT (R130). -/
def execInit (s : State) : Result := inPhase (acceptsInit s.phase) s (accept [] (beginComputation s))

/-- What an accepted chunk of `n` bytes does: fold, count, and end Accumulation when it is shorter than 160 (R131, R132). -/
def absorbChunk (n : Nat) (d : List Byte) (a : AccBuffer) (c : Count) (s : State) : State :=
  ((s.setAcc (.val (absorbBytes a d))).setCnt (.val (c + BitVec.ofNat 64 n))).setPhase
    (if n < Config.chunk then .scattering else .accumulating)

/-- ABSORB under either value of `OVERFLOW`: the checks in the order of R131 and R235, then the chunk (R131, R135). -/
def absorbUnder (mode : Config.Overflow) (n : Nat) (d : List Byte) (s : State) : Result :=
  if chunkOk n d then
    inPhase (s.phase == .accumulating) s
      (readReg .cnt s.cnt fun c =>
        if mode = .fault ∧ Config.countMax < c.toNat + n then reject .eOverflow s
        else readReg .acc s.acc fun a => accept [] (absorbChunk n d a c s))
  else reject .eLength s

/-- ABSORB with the value of `OVERFLOW` in force (R131). -/
def execAbsorb (n : Nat) (d : List Byte) (s : State) : Result := absorbUnder overflowInForce n d s

/-- ABORT (R231). -/
def execAbort (s : State) : Result := inPhase (s.phase == .accumulating) s (accept [] (enterAborted s))

end Sys2Proof.Machine
end

