-- ==== Sys2Proof/Machine/Combine.lean ====
section
/-! DEFINITION. Stage 3, Rotate-and-Combine (spec/43_rotate_combine.md): COMBINE. -/

namespace Sys2Proof.Machine

/-- The running result of R170: block 0 unrotated, then for `k` in 1..7 block `k` rotated left by `k` bits is XORed in. -/
def combineBlocks (b : BlockSet) : Block :=
  ([1, 2, 3, 4, 5, 6, 7] : List (Fin 8)).foldl
    (fun r k => xorBlock r (rotl b[k] ⟨k.val, by omega⟩)) b[0]

/-- COMBINE (R170). -/
def execCombine (s : State) : Result :=
  inStepPhase .combining s
    (readReg .blk s.blk fun b => .next ((s.setRes (.val (combineBlocks b))).setPhase .folding))

end Sys2Proof.Machine
end

