-- ==== Sys2Proof/Machine/Datapath.lean ====
section
/-! DEFINITION. The datapath functions evaluated as operations (spec/40_block_primitives.md R110 to R115): each returns its
Block and reads no register, writes no register and changes no phase. -/

namespace Sys2Proof.Machine

/-- ZERO (R110). -/
def execZero (s : State) : Result := .next (s.emit zeroBlock)

/-- XOR (R111). -/
def execXor (a b : Block) (s : State) : Result := .next (s.emit (xorBlock a b))

/-- ROTL: a count of 160 or more is refused, not reduced (R112, U3). -/
def execRotl (b : Block) (n : Nat) (s : State) : Result :=
  if h : n < 160 then .next (s.emit (rotl b ⟨n, h⟩)) else .refused (.rotateCountOutOfDomain n)

/-- BREV (R113). -/
def execBrev (b : Block) (s : State) : Result := .next (s.emit (brev b))

/-- EXT8 (R114). -/
def execExt8 (x : Byte) (s : State) : Result := .next (s.emit (ext8 x))

/-- EXT64 with the value of `LEN_ORDER` in force (R115). -/
def execExt64 (l : Count) (s : State) : Result := .next (s.emit (ext64 lenOrderInForce l))

end Sys2Proof.Machine
end

