-- ==== Sys2Proof/Machine/Flags.lean ====
section
/-! DEFINITION. The hardware has no flags (spec/10_state.md R36). What a host can observe is decoded from `PHASE`: the phase
code (spec/30_encoding.md R85) and the status outputs (R34); and the bytes of a response (R84). -/

namespace Sys2Proof.Machine

/-- The phase code STATUS returns; 7 is never produced (R85). -/
def phaseCode : Phase → Byte
  | .start => 0
  | .accumulating => 1
  | .scattering => 2
  | .combining => 3
  | .folding => 4
  | .done => 5
  | .aborted => 6

/-- `idle = (PHASE = Start)` (R34). -/
def idle (s : State) : Bool := s.phase == .start

/-- `ready_for_chunk = (PHASE = Accumulating)` (R34). -/
def readyForChunk (s : State) : Bool := s.phase == .accumulating

/-- `busy = (PHASE in (Scattering, Combining, Folding))` (R34). -/
def busy (s : State) : Bool := s.phase == .scattering || s.phase == .combining || s.phase == .folding

/-- `done = (PHASE = Done)` (R34). -/
def digestDone (s : State) : Bool := s.phase == .done

/-- `aborted = (PHASE = Aborted)` (R34). -/
def isAborted (s : State) : Bool := s.phase == .aborted

/-- The five status outputs in R34's order. -/
def statusOutputs (s : State) : List Bool := [idle s, readyForChunk s, busy s, digestDone s, isAborted s]

/-- The value of an error's code (spec/60_exceptions.md R234). -/
def statusCode : Status → Byte
  | .ok => 0x00
  | .error .eOpcode => 0x01
  | .error .eLength => 0x02
  | .error .ePhase => 0x03
  | .error .eOverflow => 0x04

/-- The bytes of a response: the status byte, then the payload (R84). -/
def responseBytes (r : Response) : List Byte := statusCode r.status :: r.payload

end Sys2Proof.Machine
end

