-- ==== Sys2Proof/Machine/LengthFold.lean ====
section
/-! DEFINITION. Stage 4, Length Fold, and the two host commands that observe the outcome (spec/44_length_fold.md): FOLD,
STATUS, RDIGEST. -/

namespace Sys2Proof.Machine

/-- The combination byte-reversed, then the length block XORed in (R190). -/
def foldLength (order : Config.LenOrder) (h : Block) (c : Count) : Block := xorBlock (brev h) (ext64 order c)

/-- FOLD under either value of `LEN_ORDER` (R190, R196). -/
def foldUnder (order : Config.LenOrder) (s : State) : Result :=
  inStepPhase .folding s
    (readReg .res s.res fun h =>
      readReg .cnt s.cnt fun c =>
        .next (((s.setRes (.val (foldLength order h c))).setBlk .undef).setPhase .done))

/-- FOLD with the value of `LEN_ORDER` in force (R190). -/
def execFold (s : State) : Result := foldUnder lenOrderInForce s

/-- STATUS: the phase code, in every phase; nothing is written (R193, R85). -/
def execStatus (s : State) : Result := accept [phaseCode s.phase] s

/-- RDIGEST: the digest's 20 bytes, `b_j = RES[j]`, index 0 first, in `Done` only; nothing is written (R194, R55). -/
def execRdigest (s : State) : Result :=
  inPhase (s.phase == .done) s (readReg .res s.res fun d => accept (toBytes 20 d) s)

end Sys2Proof.Machine
end

