-- ==== Sys2Proof/Machine/Scatter.lean ====
section
/-! DEFINITION. Stage 2, Bit Scatter (spec/42_bit_scatter.md): SCATTER. -/

namespace Sys2Proof.Machine

/-- `BLK[k][o] <- x` for the slot `(k, o)`. -/
def writeSlot (b : BlockSet) (slot : Fin 8 × Fin 20) (x : Byte) : BlockSet :=
  b.set slot.1 (setByte b[slot.1] slot.2 x)

/-- The walk of R150: for `i` in 0..159, in order, `BLK[SIGMA(i)] <- ACC[i]`. The block set the walk starts from is of no
account, every slot being written (R153; log 17). -/
def scatterBytes (a : AccBuffer) : BlockSet :=
  (List.finRange 160).foldl (fun b i => writeSlot b (sigma i) a[i]) (Vector.replicate 8 zeroBlock)

/-- SCATTER (R150). ACC keeps its value (R157). -/
def execScatter (s : State) : Result :=
  inStepPhase .scattering s
    (readReg .acc s.acc fun a => .next ((s.setBlk (.val (scatterBytes a))).setPhase .combining))

end Sys2Proof.Machine
end

