-- ==== Sys2Proof/Machine/Dispatch.lean ====
section
/-! DEFINITION. Which meaning each operation has: one arm per constructor of Instr. -/

namespace Sys2Proof.Machine

def exec (i : Instr) (s : State) : Host.Outcome State Fault Refusal :=
  match i with
  | .init => Sys2Proof.Machine.execInit s
  | .absorb n d => Sys2Proof.Machine.execAbsorb n d s
  | .abort => Sys2Proof.Machine.execAbort s
  | .status => Sys2Proof.Machine.execStatus s
  | .rdigest => Sys2Proof.Machine.execRdigest s
  | .scatter => Sys2Proof.Machine.execScatter s
  | .combine => Sys2Proof.Machine.execCombine s
  | .fold => Sys2Proof.Machine.execFold s
  | .zero => Sys2Proof.Machine.execZero s
  | .xor a b => Sys2Proof.Machine.execXor a b s
  | .rotl b n => Sys2Proof.Machine.execRotl b n s
  | .brev b => Sys2Proof.Machine.execBrev b s
  | .ext8 x => Sys2Proof.Machine.execExt8 x s
  | .ext64 l => Sys2Proof.Machine.execExt64 l s

end Sys2Proof.Machine
end

