-- ==== Sys2Proof/WellFormed.lean ====
section
/-! DEFINITION. Which operations are well formed: the operand ranges of spec/30_encoding.md R81, R86 (ABSORB) and
spec/40_block_primitives.md R112 (ROTL). Every other operand is in range by its type. -/

namespace Sys2Proof

/-- ABSORB has a length of 0..160 and exactly that many bytes (R81, R86); ROTL a count below 160 (R112). -/
def Instr.wellFormed : Instr → Bool
  | .absorb n d => decide (n ≤ Config.chunk) && d.length == n
  | .rotl _ n => decide (n < 160)
  | .init => true
  | .abort => true
  | .status => true
  | .rdigest => true
  | .scatter => true
  | .combine => true
  | .fold => true
  | .zero => true
  | .xor _ _ => true
  | .brev _ => true
  | .ext8 _ => true
  | .ext64 _ => true

end Sys2Proof
end

