-- ==== Sys2Proof/Decode.lean ====
section
/-! DEFINITION. The command port's decoder, total on any bytes (spec/30_encoding.md R81, R82, R86, R87, R92); the identifiers
by which traces name all fourteen operations (R82); the encoder of both; and the host's `decodeTableWord`.

The port takes 0x01..0x05 only (R82). The identifiers 0x10..0x12 and 0x20..0x25 name an operation in a trace and are
rejected on the port; the operand bytes after a datapath identifier are the model's own form (log 9: the spec gives those
functions arguments, not encoded bits). -/

namespace Sys2Proof

/-- The class of each operation (R80). -/
def opClass : Instr → OpClass
  | .init => .hostCommand
  | .absorb _ _ => .hostCommand
  | .abort => .hostCommand
  | .status => .hostCommand
  | .rdigest => .hostCommand
  | .scatter => .engineStep
  | .combine => .engineStep
  | .fold => .engineStep
  | .zero => .datapath
  | .xor _ _ => .datapath
  | .rotl _ _ => .datapath
  | .brev _ => .datapath
  | .ext8 _ => .datapath
  | .ext64 _ => .datapath

/-- The 8-bit code of each operation (R82). -/
def opcode : Instr → Byte
  | .init => 0x01
  | .absorb _ _ => 0x02
  | .abort => 0x03
  | .status => 0x04
  | .rdigest => 0x05
  | .scatter => 0x10
  | .combine => 0x11
  | .fold => 0x12
  | .zero => 0x20
  | .xor _ _ => 0x21
  | .rotl _ _ => 0x22
  | .brev _ => 0x23
  | .ext8 _ => 0x24
  | .ext64 _ => 0x25

/-- What the command port finds at the front of the bytes that have arrived (R92), with the bytes that follow it. -/
inductive PortRead where
  /-- a whole host command -/
  | command (i : Instr) (rest : List Byte)
  /-- bytes rejected at decode, with `E_OPCODE` or `E_LENGTH` (R86) -/
  | rejected (e : ErrorCode) (rest : List Byte)
  /-- a command whose bytes have not all arrived: the engine waits for the others -/
  | incomplete
deriving DecidableEq, Repr

/-- Format CA after its opcode: the length byte, then that many chunk bytes; a length above 160 is rejected with no data
byte consumed (R81, R83, R86, R87). -/
def decodeChunk : List Byte → PortRead
  | [] => .incomplete
  | n :: d =>
    if Config.chunk < n.toNat then .rejected .eLength d
    else if d.length < n.toNat then .incomplete
    else .command (.absorb n.toNat (d.take n.toNat)) (d.drop n.toNat)

/-- The command port's decoder (R82, R86, R87, R92). -/
def decodePort : List Byte → PortRead
  | [] => .incomplete
  | b :: rest =>
    match b.toNat with
    | 0x01 => .command .init rest
    | 0x02 => decodeChunk rest
    | 0x03 => .command .abort rest
    | 0x04 => .command .status rest
    | 0x05 => .command .rdigest rest
    | _ => .rejected .eOpcode rest

/-- The operand of `k` bytes at the front of a list, as a `w`-bit value, and what follows it (log 9). -/
def takeOperand (w k : Nat) (bs : List Byte) : Option (BitVec w × List Byte) :=
  if bs.length < k then none else some (Machine.ofBytes w (bs.take k), bs.drop k)

/-- The operation a trace names by its identifier (R82): the host commands as on the port; the engine steps, which have no
operands; the datapath functions, followed by their arguments' bytes, index 0 first (log 9). -/
def decodeTrace : List Byte → Option (Instr × List Byte)
  | [] => none
  | b :: rest =>
    match b.toNat with
    | 0x10 => some (.scatter, rest)
    | 0x11 => some (.combine, rest)
    | 0x12 => some (.fold, rest)
    | 0x20 => some (.zero, rest)
    | 0x21 =>
      match takeOperand 160 20 rest with
      | none => none
      | some (x, r) => (takeOperand 160 20 r).map fun y => (.xor x y.1, y.2)
    | 0x22 =>
      match takeOperand 160 20 rest with
      | none => none
      | some (x, r) =>
        match takeOperand 8 1 r with
        | none => none
        | some (n, r') => if n.toNat < 160 then some (.rotl x n.toNat, r') else none
    | 0x23 => (takeOperand 160 20 rest).map fun x => (.brev x.1, x.2)
    | 0x24 => (takeOperand 8 1 rest).map fun x => (.ext8 x.1, x.2)
    | 0x25 => (takeOperand 64 8 rest).map fun x => (.ext64 x.1, x.2)
    | _ =>
      match decodePort (b :: rest) with
      | .command i r => some (i, r)
      | .rejected _ _ => none
      | .incomplete => none

/-- The operand bytes after an operation's code: ABSORB's length and chunk (R81), a datapath function's arguments (log 9). -/
def operandBytes : Instr → List Byte
  | .absorb n d => BitVec.ofNat 8 n :: d
  | .xor a b => Machine.toBytes 20 a ++ Machine.toBytes 20 b
  | .rotl b n => Machine.toBytes 20 b ++ [BitVec.ofNat 8 n]
  | .brev b => Machine.toBytes 20 b
  | .ext8 b => [b]
  | .ext64 l => Machine.toBytes 8 l
  | .init => []
  | .abort => []
  | .status => []
  | .rdigest => []
  | .scatter => []
  | .combine => []
  | .fold => []
  | .zero => []

/-- The bytes of an operation, for a host command those it is sent as on the command port (R81, R82, R90). -/
def encode (i : Instr) : List Byte := opcode i :: operandBytes i

/-- The bytes of a table word: bit 0 of `w` is the least significant bit of byte 0; zero bytes follow, up to the longest
operation's operands. -/
def tableBytes (nbits w : Nat) : List Byte :=
  (List.range (nbits / 8)).map (fun j => BitVec.ofNat 8 (w >>> (8 * j))) ++ List.replicate 162 0

/-- The operation the decoder reads from a row's word (the host's question, log 10). -/
def decodeTableWord (nbits w : Nat) : Option Instr := (decodeTrace (tableBytes nbits w)).map Prod.fst

end Sys2Proof
end

