-- ==== Sys2Proof/Machine/Sequence.lean ====
section
/-! DEFINITION. What happens next: a command at the port, the next event of the outside world, or the engine's own step
(spec/00_scope.md R10, spec/20_memory.md R61, spec/30_encoding.md R92, spec/70_reset_and_hazards.md R270; log 6). -/

namespace Sys2Proof.Machine

/-- The engine step a phase enables (R10, R80). -/
def engineStepOf : Phase → Option Instr
  | .scattering => some .scatter
  | .combining => some .combine
  | .folding => some .fold
  | .start => none
  | .accumulating => none
  | .done => none
  | .aborted => none

/-- What one step does: run an operation on a state, or nothing but what is already settled. -/
inductive Turn where
  | run (i : Instr) (s : State)
  | settled (r : Result)

/-- The engine's turn: the step its phase enables; in another phase it waits and keeps its registers (R10, R246). -/
def engineTurn (s : State) : Turn :=
  match engineStepOf s.phase with
  | some i => .run i s
  | none => .settled (.next s)

/-- A transaction-level command: performed when it is a host command; the code of any other operation is rejected as on
the port (R82, R86). -/
def commandTurn (i : Instr) (s : State) : Turn :=
  match opClass i with
  | .hostCommand => .run i s
  | .engineStep => .settled (reject .eOpcode s)
  | .datapath => .settled (reject .eOpcode s)

/-- An evaluation: performed for a datapath function; any other operation is no function to evaluate, and the event passes
(log 8). -/
def evaluateTurn (i : Instr) (s : State) : Turn :=
  match opClass i with
  | .datapath => .run i s
  | .hostCommand => .settled (.next s)
  | .engineStep => .settled (.next s)

/-- The next event of the outside world; when there is none the engine takes the step its phase enables (R270). -/
def inputTurn (s : State) : Turn :=
  match s.input with
  | [] => engineTurn s
  | .bytes bs :: rest => .settled (.next ((s.setInput rest).setPort (s.port ++ bs)))
  | .command i :: rest => commandTurn i (s.setInput rest)
  | .engine :: rest => engineTurn (s.setInput rest)
  | .evaluate i :: rest => evaluateTurn i (s.setInput rest)
  | .reset :: rest => .settled (.next (hardReset (s.setInput rest)))

/-- A command whose bytes have all arrived is performed, or rejected, before anything else happens (R61, R86, R92). -/
def nextTurn (s : State) : Turn :=
  match decodePort s.port with
  | .command i rest => .run i (s.setPort rest)
  | .rejected e rest => .settled (reject e (s.setPort rest))
  | .incomplete => inputTurn s

/-- A register's value where it holds one, else the given one. -/
def orValue {α : Type} (r : Reg α) (v : α) : Reg α :=
  match r with
  | .undef => .val v
  | .val x => .val x

/-- The engine selects its step by the phase alone; the phase in which it takes `i`, with the registers that are `def` in
that phase (spec/10_state.md R31) holding a value: their own where they have one, else zero (log 10). -/
def selectStep (i : Instr) (s : State) : State :=
  let live := (s.setAcc (orValue s.acc (Vector.replicate 160 0))).setCnt (orValue s.cnt 0)
  let liveBlk := live.setBlk (orValue s.blk (Vector.replicate 8 0))
  match i with
  | .scatter => live.setPhase .scattering
  | .combine => liveBlk.setPhase .combining
  | .fold => (liveBlk.setRes (orValue s.res 0)).setPhase .folding
  | .init => s
  | .absorb _ _ => s
  | .abort => s
  | .status => s
  | .rdigest => s
  | .zero => s
  | .xor _ _ => s
  | .rotl _ _ => s
  | .brev _ => s
  | .ext8 _ => s
  | .ext64 _ => s

/-- The operation is put where the next step finds it: a host command's bytes at the command port; an engine step by
selecting its phase and giving the engine its turn; a datapath function as the next event (log 10). -/
def placeOperation (i : Instr) (s : State) : State :=
  match opClass i with
  | .hostCommand => s.setPort (encode i ++ s.port)
  | .engineStep => ((selectStep i s).setPort []).setInput (.engine :: s.input)
  | .datapath => (s.setPort []).setInput (.evaluate i :: s.input)

end Sys2Proof.Machine
end

