-- ==== Sys2Proof/Machine/Step.lean ====
section
/-! DEFINITION. One step of the machine, and the host's `withFetchWord`. -/

namespace Sys2Proof.Machine

/-- One step: what `nextTurn` says comes next is performed whole (spec/20_memory.md R58, R61). -/
def step (s : State) : Host.Outcome State Fault Refusal :=
  match nextTurn s with
  | .run i t => exec i t
  | .settled r => r

/-- The operation of a table word put where the next step finds it; a word the decoder refuses is left at the port (log 10). -/
def State.withFetchWord (s : State) (nbits w : Nat) : State :=
  match decodeTableWord nbits w with
  | some i => placeOperation i s
  | none => s.setPort (tableBytes nbits w ++ s.port)

end Sys2Proof.Machine
end

