-- ==== Sys2Proof/Machine/Digest.lean ====
section
/-! DEFINITION. The digest as a function of the stream (spec/45_digest_function.md R210), which the engine is to equal
(R211), and the host's rendering of it (spec/44_length_fold.md R195). No meaning of an operation uses this file. -/

namespace Sys2Proof.Machine

/-- The terms of `PRE` from stream position `t` on: byte `s[t]`, as a Block, rotated left by `(11 t) mod 160` (R210). -/
def preFrom (t : Nat) : List Byte → Block
  | [] => zeroBlock
  | b :: rest => xorBlock (rotl (ext8 b) (rotationOf t)) (preFrom (t + 1) rest)

/-- `PRE(s)` (R210). -/
def pre (s : List Byte) : Block := preFrom 0 s

/-- `QXH(s)` under either value of `LEN_ORDER`; the length is below `2^64` (R210). -/
def qxh (order : Config.LenOrder) (s : List Byte) : Block :=
  xorBlock (brev (pre s)) (ext64 order (BitVec.ofNat 64 s.length))

/-- One hexadecimal digit, lower case (R195). -/
def hexDigit (n : Nat) : Char := ['0', '1', '2', '3', '4', '5', '6', '7', '8', '9', 'a', 'b', 'c', 'd', 'e', 'f'].getD n '0'

/-- `hex(x)`: the digit of `x div 16`, then of `x mod 16` (R195). -/
def hexByte (x : Byte) : List Char := [hexDigit (x.toNat / 16), hexDigit (x.toNat % 16)]

/-- `RENDER(D)`: `hex(b19) hex(b18) .. hex(b0)` (R195, R91). -/
def render (d : Block) : List Char := (toBytes 20 d).reverse.flatMap hexByte

end Sys2Proof.Machine
end

