-- ==== Sys2Proof/Machine/Script.lean ====
section
/-! DEFINITION. The host's side: reading the stream (spec/20_memory.md R51), its reader loop (spec/41_accumulation.md R136),
and the pseudo-operations of the written syntax (spec/30_encoding.md R90). -/

namespace Sys2Proof.Machine

/-- `StreamRead(160)` on a stream that honours the contract of R51: the next 160 bytes, or all that remain, and the rest. -/
def streamRead (s : List Byte) : List Byte × List Byte := (s.take 160, s.drop 160)

/-- The answers of the stream to the host's first `k` reads: a stream that honours the contract and does not fail (R51). -/
def readsOf : Nat → List Byte → List (Option (List Byte))
  | 0, _ => []
  | k + 1, s => some (streamRead s).1 :: readsOf k (streamRead s).2

/-- The reader loop's commands after INIT (R136), from the answers to its reads, `none` being a read that failed: ABORT and
stop at a failure, else absorb, and stop after the first chunk shorter than 160. -/
def readerLoop : List (Option (List Byte)) → List Instr
  | [] => []
  | none :: _ => [.abort]
  | some c :: rest => .absorb c.length c :: (if c.length < 160 then [] else readerLoop rest)

/-- `ABSORBZ` (R90). -/
def absorbz : Instr := .absorb 0 []

/-- `. FINALIZE` (R90). -/
def finalizeSteps : List Instr := [.scatter, .combine, .fold]

/-- `FEED s`: with `q = |s| div 160` and `r = |s| mod 160`, `q` full chunks and then the terminal one of `r` bytes (R90). -/
def feed (s : List Byte) : List Instr :=
  (List.range (s.length / 160)).map (fun c => .absorb 160 ((s.drop (160 * c)).take 160))
    ++ [.absorb (s.length % 160) (s.drop (160 * (s.length / 160)))]

/-- `HASH s` up to the digest: INIT, FEED, FINALIZE (R90). -/
def hashBody (s : List Byte) : List Instr := .init :: (feed s ++ finalizeSteps)

/-- `HASH s` (R90). -/
def hashScript (s : List Byte) : List Instr := hashBody s ++ [.rdigest]

end Sys2Proof.Machine
end

