-- ==== Sys2Proof/Safety.lean ====
section
/-! DEFINITION. The terms claims are stated in: what each phase promises of the registers (spec/10_state.md R31), the
premises of spec/70_reset_and_hazards.md R272, operations performed one after another, and what a fault or a refusal is. -/

namespace Sys2Proof.Machine

/-- A register holds a value. -/
def Reg.isDef {α : Type} : Reg α → Bool
  | .undef => false
  | .val _ => true

/-- R31's table: which of ACC, CNT, BLK and RES hold a value (`def` or `dead`), phase by phase. -/
def definedIn : Phase → List Bool
  | .start => [false, false, false, false]
  | .accumulating => [true, true, false, false]
  | .scattering => [true, true, false, false]
  | .combining => [true, true, true, false]
  | .folding => [true, true, true, true]
  | .done => [true, true, false, true]
  | .aborted => [false, false, false, false]

/-- The registers hold values exactly as R31 says for the phase. -/
def State.live (s : State) : Prop := [s.acc.isDef, s.cnt.isDef, s.blk.isDef, s.res.isDef] = definedIn s.phase

/-- The five registers of the spec, without the model's own fields (R20). -/
def State.registers (s : State) : Phase × Reg AccBuffer × Reg Count × Reg BlockSet × Reg Block :=
  (s.phase, s.acc, s.cnt, s.blk, s.res)

/-- `CleanEntry`: INIT is accepted (R272). -/
def State.cleanEntry (s : State) : Prop := s.phase = .start ∨ s.phase = .done ∨ s.phase = .aborted

/-- The engine has nothing to be told: no byte at the port, no event to come. -/
def State.undisturbed (s : State) : Prop := s.port = [] ∧ s.input = []

/-- Operations performed one after another, stopping at the first fault or refusal (R61). -/
def execAll : List Instr → State → Result
  | [], s => .next s
  | i :: rest, s =>
    match exec i s with
    | .next t => execAll rest t
    | .fault r => .fault r
    | .refused r => .refused r

/-- The exclusive or of the stream bytes whose position is `i` modulo 160 (spec/41_accumulation.md R137). -/
def laneXor (s : List Byte) (i : Nat) : Byte :=
  ((List.range s.length).filter fun t => t % 160 == i).foldr (fun t x => (s[t]?).getD 0 ^^^ x) 0

/-- The accumulator bits `(i, b)` that R173 names for bit `q` of the combination: `((11 i) mod 160 + b) mod 160 = q`
(spec/43_rotate_combine.md). -/
def accBitsOf (q : Nat) : List (Fin 160 × Fin 8) :=
  ((List.finRange 160).flatMap fun i => (List.finRange 8).map fun b => (i, b)).filter
    fun x => ((11 * x.1.val) % 160 + x.2.val) % 160 == q

/-- The exclusive or of a list of bits. -/
def xorBits (l : List Bool) : Bool := l.foldr (· ^^ ·) false

/-- The response of a command that was performed (spec/30_encoding.md R84). -/
def okResponse (payload : List Byte) : Response := { status := .ok, payload := payload }

/-- The response of a command that was rejected: no payload (R84). -/
def errorResponse (e : ErrorCode) : Response := { status := .error e, payload := [] }

/-- The table of spec/60_exceptions.md R234: whether a phase accepts a host command. -/
def acceptedIn : Instr → Phase → Bool
  | .init, p => p == .start || p == .done || p == .aborted
  | .absorb _ _, p => p == .accumulating
  | .abort, p => p == .accumulating
  | .status, _ => true
  | .rdigest, p => p == .done
  | _, _ => false

/-- The destination of accumulator bit `a` in the block set taken as one vector of 1280 bits (spec/42_bit_scatter.md R154). -/
def wireOf (a : Fin 1280) : Nat :=
  160 * (sigma ⟨a.val / 8, by omega⟩).1.val + 8 * (sigma ⟨a.val / 8, by omega⟩).2.val + a.val % 8

/-- The outcome is no fault. -/
def noFault : Result → Prop
  | .next _ => True
  | .fault _ => False
  | .refused _ => True

/-- Every host command of a list is sent, in order: the bytes on the port (R81, R90). -/
def portBytes (l : List Instr) : List Byte := l.flatMap encode

/-- The number of set bits of a Block (spec/40_block_primitives.md R116). -/
def setBits (b : Block) : Nat := ((List.range 160).filter fun t => b.getLsbD t).length

end Sys2Proof.Machine
end

