-- ==== Sys2Proof/Certificates/Slice0/Obligations.lean ====
section
/-! DEFINITION. The statements for the provers, in the spec's own order of subjects: reset, the fourteen operations, the
block functions, rejections, encodings, the step, whole-machine rules, the digest. -/

section
open Sys2Proof Sys2Proof.Machine

/-! ## Reset -/

/-- R260: reset, in any phase, leaves `PHASE = Start` and every data register `undef`; the state after reset has the same
registers. -/
def Obligations.HardResetLeavesStartAndUndef : Prop :=
  (∀ s : State, (hardReset s).registers = (.start, .undef, .undef, .undef, .undef)) ∧
  State.reset.registers = (.start, .undef, .undef, .undef, .undef)

/-! ## The operations -/

/-- R130, INIT: in `Start`, `Done`, `Aborted` the whole next state; in the other phases `E_PHASE` and nothing else. -/
def Obligations.InitBeginsComputation : Prop :=
  ∀ s : State,
    ((s.phase = .start ∨ s.phase = .done ∨ s.phase = .aborted) →
      ∃ a : AccBuffer, (∀ i : Fin 160, a[i] = 0) ∧
        exec .init s = .next { s with
          phase := .accumulating, acc := .val a, cnt := .val 0, blk := .undef, res := .undef,
          responses := s.responses ++ [okResponse []] }) ∧
    ((s.phase = .accumulating ∨ s.phase = .scattering ∨ s.phase = .combining ∨ s.phase = .folding) →
      exec .init s = .next { s with responses := s.responses ++ [errorResponse .ePhase] })

/-- R131, ABSORB: its three rejections in their order, each changing nothing, and the accepted chunk's whole next state. -/
def Obligations.AbsorbFoldsChunk : Prop :=
  ∀ (s : State) (n : Nat) (d : List Byte),
    ((160 < n ∨ d.length ≠ n) →
      exec (.absorb n d) s = .next { s with responses := s.responses ++ [errorResponse .eLength] }) ∧
    (n ≤ 160 → d.length = n → s.phase ≠ .accumulating →
      exec (.absorb n d) s = .next { s with responses := s.responses ++ [errorResponse .ePhase] }) ∧
    (∀ c : Count, n ≤ 160 → d.length = n → s.phase = .accumulating → s.cnt = .val c → 2 ^ 64 - 1 < c.toNat + n →
      exec (.absorb n d) s = .next { s with responses := s.responses ++ [errorResponse .eOverflow] }) ∧
    (∀ (a : AccBuffer) (c : Count), n ≤ 160 → d.length = n → s.phase = .accumulating → s.acc = .val a → s.cnt = .val c →
      c.toNat + n ≤ 2 ^ 64 - 1 →
      ∃ (a' : AccBuffer) (c' : Count),
        (∀ (j : Fin 160) (h : j.val < d.length), a'[j] = a[j] ^^^ d[j.val]) ∧
        (∀ j : Fin 160, d.length ≤ j.val → a'[j] = a[j]) ∧
        c'.toNat = c.toNat + n ∧
        exec (.absorb n d) s = .next { s with
          acc := .val a', cnt := .val c', phase := if n < 160 then .scattering else .accumulating,
          responses := s.responses ++ [okResponse []] })

/-- R135 under either value of `OVERFLOW`: `wrap` absorbs the chunk with the counter modulo `2^64`, `fault` rejects it with
no state change; the machine runs with `fault`, the normative value. -/
def Obligations.AbsorbUnderEitherOverflow : Prop :=
  (∀ (n : Nat) (d : List Byte) (s : State), exec (.absorb n d) s = absorbUnder .fault n d s) ∧
  ∀ (s : State) (n : Nat) (d : List Byte) (a : AccBuffer) (c : Count),
    n ≤ 160 → d.length = n → s.phase = .accumulating → s.acc = .val a → s.cnt = .val c →
    (2 ^ 64 - 1 < c.toNat + n →
      absorbUnder .fault n d s = .next { s with responses := s.responses ++ [errorResponse .eOverflow] }) ∧
    ∃ c' : Count, c'.toNat = (c.toNat + n) % 2 ^ 64 ∧
      absorbUnder .wrap n d s = .next { s with
        acc := .val (absorbBytes a d), cnt := .val c', phase := if n < 160 then .scattering else .accumulating,
        responses := s.responses ++ [okResponse []] }

/-- R231, ABORT: in `Accumulating` ACC and CNT become `undef` and the phase `Aborted`; elsewhere `E_PHASE`. -/
def Obligations.AbortEntersAborted : Prop :=
  ∀ s : State,
    (s.phase = .accumulating →
      exec .abort s = .next { s with
        phase := .aborted, acc := .undef, cnt := .undef, responses := s.responses ++ [okResponse []] }) ∧
    (s.phase ≠ .accumulating →
      exec .abort s = .next { s with responses := s.responses ++ [errorResponse .ePhase] })

/-- R193 and R85, STATUS: in every phase the response is `OK` with the phase's code, and nothing is written. -/
def Obligations.StatusReturnsPhaseCode : Prop :=
  (∀ s : State, exec .status s = .next { s with responses := s.responses ++ [okResponse [phaseCode s.phase]] }) ∧
  phaseCode .start = 0 ∧ phaseCode .accumulating = 1 ∧ phaseCode .scattering = 2 ∧ phaseCode .combining = 3 ∧
  phaseCode .folding = 4 ∧ phaseCode .done = 5 ∧ phaseCode .aborted = 6

/-- R194, RDIGEST: in `Done` the 20 bytes of RES, index 0 first, and nothing is written; elsewhere `E_PHASE`. -/
def Obligations.RdigestReturnsDigest : Prop :=
  ∀ s : State,
    (∀ d : Block, s.phase = .done → s.res = .val d →
      exec .rdigest s = .next { s with responses := s.responses ++ [okResponse (List.ofFn (byteAt d))] }) ∧
    (s.phase ≠ .done →
      exec .rdigest s = .next { s with responses := s.responses ++ [errorResponse .ePhase] })

/-- R150, SCATTER: every accumulator byte `i` is in block `p mod 8` at byte `(p div 8) mod 20` with
`p = (i * 11) mod 1280`; only BLK and PHASE change. -/
def Obligations.ScatterFillsEverySlot : Prop :=
  ∀ (s : State) (a : AccBuffer), s.phase = .scattering → s.acc = .val a →
    ∃ b : BlockSet, exec .scatter s = .next { s with blk := .val b, phase := .combining } ∧
      ∀ (i : Fin 160) (k : Fin 8) (o : Fin 20),
        k.val = ((i.val * 11) % 1280) % 8 → o.val = (((i.val * 11) % 1280) / 8) % 20 → byteAt b[k] o = a[i]

/-- R155: after SCATTER slot `(k, o)` holds accumulator byte `((8 o + k) * 131) mod 160`. -/
def Obligations.ScatterSlotHoldsInverseIndex : Prop :=
  ∀ (s : State) (a : AccBuffer), s.phase = .scattering → s.acc = .val a →
    ∃ (t : State) (b : BlockSet), exec .scatter s = .next t ∧ t.blk = .val b ∧
      ∀ (k : Fin 8) (o : Fin 20) (i : Fin 160), i.val = ((8 * o.val + k.val) * 131) % 160 → byteAt b[k] o = a[i]

/-- R154: SCATTER bit by bit is a permutation of 1280 wires that keeps the bit number within the byte, and it is not the
map `a -> 11 a mod 1280`. -/
def Obligations.ScatterWiresBits : Prop :=
  (∀ (s : State) (a : AccBuffer), s.phase = .scattering → s.acc = .val a →
    ∃ (t : State) (b : BlockSet), exec .scatter s = .next t ∧ t.blk = .val b ∧
      ∀ (i : Fin 160) (x : Fin 8),
        (b[(sigma i).1]).getLsbD (8 * (sigma i).2.val + x.val) = (a[i]).getLsbD x.val) ∧
  (∀ a : Fin 1280, wireOf a < 1280) ∧ (∀ q : Nat, q < 1280 → ∃! a : Fin 1280, wireOf a = q) ∧
  ∃ a : Fin 1280, wireOf a ≠ (11 * a.val) % 1280

/-- R151, R153 and R219: the scatter map, in both of the forms R151 gives, sends the 160 byte indices one to one onto the 160
slots, 20 to each block. -/
def Obligations.ScatterMapIsBijective : Prop :=
  (∀ i : Fin 160, (sigma i).1.val = ((i.val * 11) % 1280) % 8 ∧ (sigma i).2.val = (((i.val * 11) % 1280) / 8) % 20) ∧
  (∀ i : Fin 160, (sigma i).1.val = ((i.val * 11) % 160) % 8 ∧ (sigma i).2.val = ((i.val * 11) % 160) / 8) ∧
  Function.Bijective sigma ∧
  ∀ k : Fin 8, ((List.finRange 160).filter fun i => (sigma i).1 = k).length = 20

/-- R170, COMBINE: block 0 unrotated, block `k` rotated left by `k` bits for `k` in 1..7, all XORed; only RES and PHASE
change. -/
def Obligations.CombineXorsRotatedBlocks : Prop :=
  ∀ (s : State) (b : BlockSet), s.phase = .combining → s.blk = .val b →
    exec .combine s = .next { s with
      res := .val (xorAll [b[0], rotl b[1] 1, rotl b[2] 2, rotl b[3] 3, rotl b[4] 4, rotl b[5] 5, rotl b[6] 6, rotl b[7] 7]),
      phase := .folding }

/-- R173: after SCATTER and COMBINE each result bit is the XOR of the accumulator bits R173 names, eight of them and one
from each block; in Block terms RES is the XOR of the accumulator's bytes, byte `i` rotated by `(11 i) mod 160`. -/
def Obligations.CombinationBitByBit : Prop :=
  (∀ (s : State) (a : AccBuffer), s.phase = .scattering → s.acc = .val a →
    ∃ (u t : State) (r : Block), exec .scatter s = .next u ∧ exec .combine u = .next t ∧ t.res = .val r ∧
      (∀ q : Nat, q < 160 → r.getLsbD q = xorBits ((accBitsOf q).map fun x => (a[x.1]).getLsbD x.2.val)) ∧
      r = xorAll ((List.finRange 160).map fun i : Fin 160 => rotl (ext8 a[i]) ⟨(11 * i.val) % 160, Nat.mod_lt _ (by decide)⟩)) ∧
  ∀ q : Nat, q < 160 →
    (accBitsOf q).length = 8 ∧ ((accBitsOf q).map fun x => (sigma x.1).1).Nodup

/-- R190, FOLD under either `LEN_ORDER`: the reversed combination with the length block XORed in, byte by byte under
`value`; BLK becomes `undef` (R196); CNT and ACC are kept. The machine runs with `value`, the normative one. -/
def Obligations.FoldReversesThenXorsLength : Prop :=
  (∀ s : State, exec .fold s = foldUnder .value s) ∧
  ∀ (s : State) (h : Block) (c : Count), s.phase = .folding → s.res = .val h → s.cnt = .val c →
    (∀ order : Config.LenOrder,
      foldUnder order s = .next { s with
        res := .val (xorBlock (brev h) (ext64 order c)), blk := .undef, phase := .done }) ∧
    ∃ d : Block, exec .fold s = .next { s with res := .val d, blk := .undef, phase := .done } ∧
      (∀ j : Fin 20, j.val < 8 → byteAt d j = byteAt h j.rev ^^^ BitVec.ofNat 8 (c.toNat / 2 ^ (8 * j.val))) ∧
      ∀ j : Fin 20, 8 ≤ j.val → byteAt d j = byteAt h j.rev

/-- R110 and R111, ZERO and XOR evaluated as operations: the Block returned, byte by byte and as a value, with nothing else
changed. That a datapath function can be evaluated as an operation on its own is the model's (log 8). -/
def Obligations.ZeroAndXorReturnBlocks : Prop :=
  (∀ s : State, ∃ z : Block, exec .zero s = .next { s with values := s.values ++ [z] } ∧ z.toNat = 0 ∧
    (∀ j, byteAt z j = 0) ∧ (∀ b, xorBlock b z = b) ∧ (∀ n, rotl z n = z) ∧ brev z = z) ∧
  ∀ (s : State) (a b : Block), ∃ c : Block, exec (.xor a b) s = .next { s with values := s.values ++ [c] } ∧
    (∀ j, byteAt c j = byteAt a j ^^^ byteAt b j) ∧ c.toNat = a.toNat ^^^ b.toNat ∧ (a = b → c = zeroBlock)

/-- R113 and R114, BREV and EXT8 evaluated as operations (log 8): the Block returned, byte by byte, with nothing else
changed; BREV is an involution, EXT8's value is the byte's. -/
def Obligations.BrevAndExt8ReturnBlocks : Prop :=
  (∀ (s : State) (b : Block), ∃ c : Block, exec (.brev b) s = .next { s with values := s.values ++ [c] } ∧
    (∀ j : Fin 20, byteAt c j = byteAt b ⟨19 - j.val, by omega⟩) ∧ brev c = b) ∧
  ∀ (s : State) (x : Byte), ∃ c : Block, exec (.ext8 x) s = .next { s with values := s.values ++ [c] } ∧
    byteAt c 0 = x ∧ (∀ j : Fin 20, 1 ≤ j.val → byteAt c j = 0) ∧ c.toNat = x.toNat

/-- R112, ROTL evaluated as an operation (log 8): below 160 the Block returned is the rotation of the 160-bit value, bit by
bit and by the formula; from 160 on it is refused, not reduced (U3). -/
def Obligations.RotlRotatesWholeBlock : Prop :=
  (∀ (s : State) (b : Block) (n : Nat), n < 160 →
    ∃ r : Block, exec (.rotl b n) s = .next { s with values := s.values ++ [r] } ∧
      (n = 0 → r = b) ∧
      (1 ≤ n → r.toNat = ((b.toNat <<< n) % 2 ^ 160) ||| (b.toNat >>> (160 - n))) ∧
      ∀ t : Nat, t < 160 → r.getLsbD ((t + n) % 160) = b.getLsbD t) ∧
  ∀ (s : State) (b : Block) (n : Nat), 160 ≤ n → exec (.rotl b n) s = .refused (.rotateCountOutOfDomain n)

/-- R118: the rotation over the byte array, with `q = n div 8` and `r = n mod 8`. -/
def Obligations.RotlByteArrayForm : Prop :=
  ∀ (b : Block) (n : Fin 160) (j u v : Fin 20),
    u.val = (j.val + 20 - n.val / 8) % 20 → v.val = (j.val + 40 - n.val / 8 - 1) % 20 →
    (n.val % 8 = 0 → byteAt (rotl b n) j = byteAt b u) ∧
    (0 < n.val % 8 →
      byteAt (rotl b n) j = (byteAt b u <<< (n.val % 8)) ||| (byteAt b v >>> (8 - n.val % 8)))

/-- R115, EXT64 evaluated as an operation (log 8): the counter's bytes in byte indices 0..7 under either `LEN_ORDER`, the
other twelve zero; under `value`, which the machine runs with, the Block is the zero-extension of the counter. -/
def Obligations.Ext64PlacesCounter : Prop :=
  (∀ (s : State) (l : Count), exec (.ext64 l) s = .next { s with values := s.values ++ [ext64 .value l] }) ∧
  ∀ l : Count,
    (∀ j : Fin 20, j.val < 8 → byteAt (ext64 .value l) j = BitVec.ofNat 8 (l.toNat / 2 ^ (8 * j.val))) ∧
    (∀ j : Fin 20, j.val < 8 → byteAt (ext64 .swapped l) j = BitVec.ofNat 8 (l.toNat / 2 ^ (8 * (7 - j.val)))) ∧
    (∀ (order : Config.LenOrder) (j : Fin 20), 8 ≤ j.val → byteAt (ext64 order l) j = 0) ∧
    (ext64 .value l).toNat = l.toNat ∧ ∀ order : Config.LenOrder, ext64 order 0 = zeroBlock

/-- R116: the eight laws of the datapath functions. -/
def Obligations.DatapathLaws : Prop :=
  ((∀ a b, xorBlock a b = xorBlock b a) ∧ (∀ a b c, xorBlock (xorBlock a b) c = xorBlock a (xorBlock b c)) ∧
    (∀ a, xorBlock a zeroBlock = a) ∧ ∀ a, xorBlock a a = zeroBlock) ∧
  (∀ a b n, rotl (xorBlock a b) n = xorBlock (rotl a n) (rotl b n)) ∧
  (∀ (b : Block) (m n k : Fin 160), k.val = (m.val + n.val) % 160 → rotl (rotl b m) n = rotl b k) ∧
  (∀ n k : Fin 160, k.val = (160 - n.val) % 160 →
    Function.Bijective (rotl · n) ∧ (∀ b, rotl (rotl b n) k = b) ∧ ∀ b, rotl (rotl b k) n = b) ∧
  ((∀ a b, brev (xorBlock a b) = xorBlock (brev a) (brev b)) ∧ ∀ b, brev (brev b) = b) ∧
  (∃ (b : Block) (n : Fin 160), brev (rotl b n) ≠ rotl (brev b) n) ∧
  ((∀ b n, setBits (rotl b n) = setBits b) ∧ ∀ b, setBits (brev b) = setBits b) ∧
  ∀ (x : Byte) (o : Fin 20) (k : Fin 8) (n m : Fin 160), n.val = 8 * o.val + k.val → m.val = k.val →
    rotl (ext8 x) n = rotl (blockOf fun j => if j = o then x else 0) m

/-! ## Rejections, faults and refusals -/

/-- R234: each error's code, and when a host command is rejected with it: `E_LENGTH` for operands that are no chunk,
`E_PHASE` by the table of phases, `E_OVERFLOW` past the counter's end; `E_OPCODE` for a first byte that is no host
command's. -/
def Obligations.EveryRejectionHasItsCondition : Prop :=
  (statusCode .ok = 0x00 ∧ statusCode (.error .eOpcode) = 0x01 ∧ statusCode (.error .eLength) = 0x02 ∧
    statusCode (.error .ePhase) = 0x03 ∧ statusCode (.error .eOverflow) = 0x04) ∧
  (∀ (i : Instr) (s : State), opClass i = .hostCommand →
    (exec i s = .next { s with responses := s.responses ++ [errorResponse .eLength] } ↔
      ∃ n d, i = .absorb n d ∧ (160 < n ∨ d.length ≠ n)) ∧
    (exec i s = .next { s with responses := s.responses ++ [errorResponse .ePhase] } ↔
      i.wellFormed = true ∧ acceptedIn i s.phase = false) ∧
    (exec i s = .next { s with responses := s.responses ++ [errorResponse .eOverflow] } ↔
      ∃ n d c, i = .absorb n d ∧ i.wellFormed = true ∧ s.phase = .accumulating ∧ s.cnt = .val c ∧
        2 ^ 64 - 1 < c.toNat + n) ∧
    exec i s ≠ .next { s with responses := s.responses ++ [errorResponse .eOpcode] }) ∧
  ∀ (s : State) (b : Byte) (rest : List Byte), s.port = b :: rest →
    ((∃ r, decodePort s.port = .rejected .eOpcode r) ↔ b ≠ 1 ∧ b ≠ 2 ∧ b ≠ 3 ∧ b ≠ 4 ∧ b ≠ 5)

/-- R235: the order of checks `E_OPCODE`, `E_LENGTH`, `E_PHASE`, `E_OVERFLOW`: the first two from the bytes alone in every
state, `E_PHASE` whatever the counter holds, `E_OVERFLOW` last. Exactly one error is reported, with nothing else changed. That
a whole command at the port is taken before any other event is the model's order (log 6). -/
def Obligations.ChecksHappenInOrder : Prop :=
  (∀ (s : State) (b : Byte) (rest : List Byte), s.port = b :: rest → b ≠ 1 → b ≠ 2 → b ≠ 3 → b ≠ 4 → b ≠ 5 →
    step s = .next { s with port := rest, responses := s.responses ++ [errorResponse .eOpcode] }) ∧
  (∀ (s : State) (n : Byte) (rest : List Byte), s.port = 2 :: n :: rest → 160 < n.toNat →
    step s = .next { s with port := rest, responses := s.responses ++ [errorResponse .eLength] }) ∧
  (∀ (s : State) (n : Byte) (d rest : List Byte), s.port = 2 :: n :: (d ++ rest) → n.toNat ≤ 160 → d.length = n.toNat →
    s.phase ≠ .accumulating →
    step s = .next { s with port := rest, responses := s.responses ++ [errorResponse .ePhase] }) ∧
  ∀ (s : State) (n : Byte) (d rest : List Byte) (c : Count), s.port = 2 :: n :: (d ++ rest) → n.toNat ≤ 160 →
    d.length = n.toNat → s.phase = .accumulating → s.cnt = .val c → 2 ^ 64 - 1 < c.toNat + n.toNat →
    step s = .next { s with port := rest, responses := s.responses ++ [errorResponse .eOverflow] }

/-- R237, of every host command: if the response is an error, the state is otherwise the one before; and the engine steps
cannot fail in a state whose registers are as R31 says. -/
def Obligations.RejectedCommandChangesNothing : Prop :=
  (∀ (i : Instr) (s t : State) (e : ErrorCode) (p : List Byte), opClass i = .hostCommand → exec i s = .next t →
    t.responses = s.responses ++ [{ status := .error e, payload := p }] →
    t = { s with responses := s.responses ++ [errorResponse e] }) ∧
  ∀ (i : Instr) (s : State), s.live → engineStepOf s.phase = some i → ∃ t, exec i s = .next t

/-- An engine step outside its phase is no transition of R25 and is refused (the model's choice, log 11). -/
def Obligations.EngineStepNeedsItsPhase : Prop :=
  ∀ s : State,
    (s.phase ≠ .scattering → exec .scatter s = .refused (.stepNotEnabled s.phase)) ∧
    (s.phase ≠ .combining → exec .combine s = .refused (.stepNotEnabled s.phase)) ∧
    (s.phase ≠ .folding → exec .fold s = .refused (.stepNotEnabled s.phase))

/-- R30 and U2: a read of a register that holds `undef` is a fault and puts no value in its place (the model takes the
fault that R30 allows, log 1). -/
def Obligations.UndefReadFaults : Prop :=
  ∀ s : State,
    (s.phase = .scattering → s.acc = .undef → exec .scatter s = .fault (.undefRead .acc)) ∧
    (s.phase = .combining → s.blk = .undef → exec .combine s = .fault (.undefRead .blk)) ∧
    (s.phase = .folding → s.res = .undef → exec .fold s = .fault (.undefRead .res)) ∧
    (∀ h, s.phase = .folding → s.res = .val h → s.cnt = .undef → exec .fold s = .fault (.undefRead .cnt)) ∧
    (s.phase = .done → s.res = .undef → exec .rdigest s = .fault (.undefRead .res)) ∧
    (∀ n d, n ≤ 160 → d.length = n → s.phase = .accumulating → s.cnt = .undef →
      exec (.absorb n d) s = .fault (.undefRead .cnt)) ∧
    ∀ n d c, n ≤ 160 → d.length = n → s.phase = .accumulating → s.cnt = .val c → c.toNat + n ≤ 2 ^ 64 - 1 → s.acc = .undef →
      exec (.absorb n d) s = .fault (.undefRead .acc)

/-! ## Encodings -/

/-- The words written out from R81, R82, R86 and R90, and what they stand for; the words of engine steps and datapath
functions name them in a trace (log 9: the operand bytes are the model's) and are rejected on the port. -/
def Obligations.SpecWordsDecode : Prop :=
  decodePort [0x01] = .command .init [] ∧
  decodePort [0x02, 0x03, 0x61, 0x62, 0x63] = .command (.absorb 3 [0x61, 0x62, 0x63]) [] ∧
  decodePort [0x02, 0x00, 0x05] = .command (.absorb 0 []) [0x05] ∧
  decodePort [0x03] = .command .abort [] ∧ decodePort [0x04] = .command .status [] ∧
  decodePort [0x05] = .command .rdigest [] ∧
  decodePort [0x00] = .rejected .eOpcode [] ∧ decodePort [0x10] = .rejected .eOpcode [] ∧
  decodePort [0x22] = .rejected .eOpcode [] ∧ decodePort [0x02, 0xc8] = .rejected .eLength [] ∧
  decodeTableWord 8 0x10 = some .scatter ∧ decodeTableWord 8 0x11 = some .combine ∧ decodeTableWord 8 0x12 = some .fold ∧
  decodeTableWord 8 0x20 = some .zero ∧ decodeTableWord 8 0x21 = some (.xor 0 0) ∧
  decodeTableWord 16 0xa524 = some (.ext8 0xa5)

/-- R81, R82, R87: the port reads a well-formed host command back from its own bytes, whatever bytes follow. -/
def Obligations.PortReadsEncodedCommand : Prop :=
  ∀ (i : Instr) (rest : List Byte), i.wellFormed = true → opClass i = .hostCommand →
    decodePort (encode i ++ rest) = .command i rest

/-- Every well-formed operation is read back from its bytes by the trace decoder, with every operand (R82; the operand
bytes of datapath functions are the model's form, log 9). -/
def Obligations.TraceReadsEncodedOperation : Prop :=
  ∀ (i : Instr) (rest : List Byte), i.wellFormed = true → decodeTrace (encode i ++ rest) = some (i, rest)

/-- The other direction: what the port reads as a command is a well-formed host command, and the bytes read are its
encoding: each byte string has one meaning. -/
def Obligations.PortReadsNothingElse : Prop :=
  ∀ (bs rest : List Byte) (i : Instr), decodePort bs = .command i rest →
    i.wellFormed = true ∧ opClass i = .hostCommand ∧ bs = encode i ++ rest

/-- R92 with R87: any bytes are a whole host command, or rejected with `E_OPCODE` after one byte or `E_LENGTH` after two, or
an incomplete command; which of them, by the bytes. -/
def Obligations.PortReadIsTotal : Prop :=
  ∀ bs : List Byte,
    (∃ i rest, decodePort bs = .command i rest ∧
      ((i ∈ [Instr.init, .abort, .status, .rdigest] ∧ bs = opcode i :: rest) ∨
        ∃ (n : Byte) (d : List Byte), i = .absorb n.toNat d ∧ n.toNat ≤ 160 ∧ d.length = n.toNat ∧
          bs = 2 :: n :: (d ++ rest))) ∨
    (∃ (b : Byte) (rest : List Byte), decodePort bs = .rejected .eOpcode rest ∧ bs = b :: rest ∧
      b ≠ 1 ∧ b ≠ 2 ∧ b ≠ 3 ∧ b ≠ 4 ∧ b ≠ 5) ∨
    (∃ (n : Byte) (rest : List Byte), decodePort bs = .rejected .eLength rest ∧ bs = 2 :: n :: rest ∧ 160 < n.toNat) ∨
    (decodePort bs = .incomplete ∧
      (bs = [] ∨ bs = [2] ∨ ∃ (n : Byte) (d : List Byte), bs = 2 :: n :: d ∧ n.toNat ≤ 160 ∧ d.length < n.toNat))

/-! ## The step -/

/-- A step performs the command whose bytes stand at the port: the bytes are consumed and the command's meaning applies
(R61, R92; that it comes before any other event is the model's order, log 6). -/
def Obligations.StepPerformsPortCommand : Prop :=
  ∀ (s : State) (i : Instr) (rest : List Byte), i.wellFormed = true → opClass i = .hostCommand → s.port = encode i ++ rest →
    step s = exec i { s with port := rest }

/-- R10 and R270: in a busy phase the engine takes its step, on its turn or when nothing else is to happen (the model's order,
log 6). -/
def Obligations.StepTakesEngineStep : Prop :=
  ∀ s : State, decodePort s.port = .incomplete →
    (s.phase = .scattering → (s.input = [] → step s = exec .scatter s) ∧
      ∀ rest, s.input = .engine :: rest → step s = exec .scatter { s with input := rest }) ∧
    (s.phase = .combining → (s.input = [] → step s = exec .combine s) ∧
      ∀ rest, s.input = .engine :: rest → step s = exec .combine { s with input := rest }) ∧
    (s.phase = .folding → (s.input = [] → step s = exec .fold s) ∧
      ∀ rest, s.input = .engine :: rest → step s = exec .fold { s with input := rest })

/-- The other events (the model's form of them: log 5, log 6, log 8, log 13, log 14): bytes arrive; a transaction-level
command is performed, or rejected when it is no host command (R86); a datapath function is evaluated; reset (R260) drops the
bytes of an unfinished command and keeps what was sent; outside the busy phases the engine waits. -/
def Obligations.StepTakesOutsideEvents : Prop :=
  ∀ s : State, decodePort s.port = .incomplete →
    (∀ bs rest, s.input = .bytes bs :: rest → step s = .next { s with input := rest, port := s.port ++ bs }) ∧
    (∀ i rest, s.input = .command i :: rest → opClass i = .hostCommand → step s = exec i { s with input := rest }) ∧
    (∀ i rest, s.input = .command i :: rest → opClass i ≠ .hostCommand →
      step s = .next { s with input := rest, responses := s.responses ++ [errorResponse .eOpcode] }) ∧
    (∀ i rest, s.input = .evaluate i :: rest → opClass i = .datapath → step s = exec i { s with input := rest }) ∧
    (∀ rest, s.input = .reset :: rest → step s = .next { s with
      phase := .start, acc := .undef, cnt := .undef, blk := .undef, res := .undef, port := [], input := rest }) ∧
    (busy s = false → s.input = [] → step s = .next s) ∧
    ∀ rest, busy s = false → s.input = .engine :: rest → step s = .next { s with input := rest }

/-- R197, the composition of the three engine steps: from `Scattering` it reaches `Done` with the digest of `(ACC, CNT)`; ACC
and CNT are kept and nothing is sent. -/
def Obligations.ThreeEngineStepsFinalize : Prop :=
  ∀ (s : State) (a : AccBuffer) (c : Count), s.phase = .scattering → s.acc = .val a → s.cnt = .val c →
    execAll [.scatter, .combine, .fold] s = .next { s with
      res := .val (xorBlock
        (brev (xorAll ((List.finRange 160).map fun i : Fin 160 => rotl (ext8 a[i]) ⟨(11 * i.val) % 160, Nat.mod_lt _ (by decide)⟩)))
        (ext64 .value c)),
      blk := .undef, phase := .done }

/-- The word of any table row, put where the next step finds it, is what the next step runs (log 10): a host command on the
state itself; an engine step in the phase that selects it; a datapath function with no bytes at the port. -/
def Obligations.TableWordRunsNext : Prop :=
  ∀ (s : State) (nbits w : Nat) (i : Instr), decodeTableWord nbits w = some i →
    (opClass i = .hostCommand → step (s.withFetchWord nbits w) = exec i s) ∧
    (opClass i = .engineStep → step (s.withFetchWord nbits w) = exec i { selectStep i s with port := [] } ∧
      engineStepOf (selectStep i s).phase = some i) ∧
    (opClass i = .datapath → step (s.withFetchWord nbits w) = exec i { s with port := [] })

/-! ## Rules of the whole machine -/

/-- R31 at reset: every data register `undef` in `Start`. -/
def Obligations.ResetStateIsLive : Prop := State.reset.live

/-- R31, kept by every step from every state that has it: which of ACC, CNT, BLK and RES hold a value is exactly what the
phase says. -/
def Obligations.StepKeepsRegistersLive : Prop :=
  ∀ s t : State, s.live → step s = .next t → t.live

/-- U2: where the registers are as R31 says no step reads a register that holds `undef`: no step faults. -/
def Obligations.LiveStepNeverFaults : Prop :=
  ∀ s : State, s.live → noFault (step s)

/-- R25: a step changes the phase only by a transition of the table, and by the operation the table names. (The form of the
reset event is the model's, log 5.) -/
def Obligations.OnlyListedPhaseTransitions : Prop :=
  ∀ s t : State, step s = .next t → t.phase ≠ s.phase →
    (t.phase = .start ∧ ∃ rest, s.input = .reset :: rest) ∨
    ∃ i u, nextTurn s = .run i u ∧
      ((i = .init ∧ (s.phase = .start ∨ s.phase = .done ∨ s.phase = .aborted) ∧ t.phase = .accumulating) ∨
       (∃ n d, i = .absorb n d ∧ n < 160 ∧ s.phase = .accumulating ∧ t.phase = .scattering) ∨
       (i = .abort ∧ s.phase = .accumulating ∧ t.phase = .aborted) ∨
       (i = .scatter ∧ s.phase = .scattering ∧ t.phase = .combining) ∨
       (i = .combine ∧ s.phase = .combining ∧ t.phase = .folding) ∨
       (i = .fold ∧ s.phase = .folding ∧ t.phase = .done))

/-- R240: from `Aborted` a step leaves the five registers as they are, unless it performs INIT (a fresh computation, with
nothing restored) or is reset (the form of the reset event is the model's, log 5). -/
def Obligations.AbortedLeftOnlyByInitOrReset : Prop :=
  ∀ s t : State, s.phase = .aborted → step s = .next t →
    t.registers = s.registers ∨
    (∃ u, nextTurn s = .run .init u ∧
      t.registers = (.accumulating, .val (Vector.replicate 160 0), .val 0, .undef, .undef)) ∨
    (∃ rest, s.input = .reset :: rest) ∧ t.registers = (.start, .undef, .undef, .undef, .undef)

/-- R22: once Accumulation has ended no step changes CNT, but INIT beginning the next computation and reset. -/
def Obligations.CounterFixedAfterAccumulation : Prop :=
  ∀ s t : State, step s = .next t →
    (s.phase = .scattering ∨ s.phase = .combining ∨ s.phase = .folding ∨ s.phase = .done) →
    t.cnt = s.cnt ∨ (s.phase = .done ∧ t.phase = .accumulating ∧ t.cnt = .val 0) ∨ (t.phase = .start ∧ t.cnt = .undef)

/-- R35's writes: which operations may change which register, of all fourteen; none changes what the outside world still
does or the bytes at the port, only host commands send a response, only datapath functions return a value. -/
def Obligations.OperationsWriteOnlyTheirRegisters : Prop :=
  ∀ (i : Instr) (s t : State), exec i s = .next t →
    (t.phase ≠ s.phase → (∃ n d, i = .absorb n d) ∨ i ∈ [Instr.init, .abort, .scatter, .combine, .fold]) ∧
    (t.acc ≠ s.acc → (∃ n d, i = .absorb n d) ∨ i ∈ [Instr.init, .abort]) ∧
    (t.cnt ≠ s.cnt → (∃ n d, i = .absorb n d) ∨ i ∈ [Instr.init, .abort]) ∧
    (t.blk ≠ s.blk → i ∈ [Instr.init, .scatter, .fold]) ∧
    (t.res ≠ s.res → i ∈ [Instr.init, .combine, .fold]) ∧
    t.input = s.input ∧ t.port = s.port ∧
    (t.responses ≠ s.responses → opClass i = .hostCommand) ∧
    (t.values ≠ s.values → opClass i = .datapath)

/-- R35's reads, of the engine steps and ABSORB: what they write depends on nothing but the registers they read. -/
def Obligations.OperationsReadOnlyTheirRegisters : Prop :=
  ∀ s u t : State, s.phase = u.phase →
    (s.acc = u.acc → exec .scatter s = .next t →
      ∃ v, exec .scatter u = .next v ∧ v.phase = t.phase ∧ v.blk = t.blk) ∧
    (s.blk = u.blk → exec .combine s = .next t →
      ∃ v, exec .combine u = .next v ∧ v.phase = t.phase ∧ v.res = t.res) ∧
    (s.res = u.res → s.cnt = u.cnt → exec .fold s = .next t →
      ∃ v, exec .fold u = .next v ∧ v.phase = t.phase ∧ v.res = t.res ∧ v.blk = t.blk) ∧
    ∀ n d, s.acc = u.acc → s.cnt = u.cnt → exec (.absorb n d) s = .next t →
      ∃ v, exec (.absorb n d) u = .next v ∧ v.phase = t.phase ∧ v.acc = t.acc ∧ v.cnt = t.cnt ∧
        ∃ r, t.responses = s.responses ++ [r] ∧ v.responses = u.responses ++ [r]

/-- R29: what a host command answers depends on the phase, on RES in `Done` only, and for ABSORB on whether the counter can
take the chunk: ACC, BLK and RES outside `Done` are never seen. -/
def Obligations.HostLearnsOnlyPhaseAndDigest : Prop :=
  ∀ (i : Instr) (s u t v : State), opClass i = .hostCommand → s.phase = u.phase → (s.phase = .done → s.res = u.res) →
    (∀ n d c, i = .absorb n d → s.cnt = .val c ∨ u.cnt = .val c → c.toNat + n ≤ 2 ^ 64 - 1) →
    exec i s = .next t → exec i u = .next v →
    ∃ r, t.responses = s.responses ++ [r] ∧ v.responses = u.responses ++ [r]

/-- R34: the five status outputs are decoded from the phase, and exactly one holds. -/
def Obligations.ExactlyOneStatusOutput : Prop :=
  ∀ s : State,
    (idle s = true ↔ s.phase = .start) ∧ (readyForChunk s = true ↔ s.phase = .accumulating) ∧
    (busy s = true ↔ s.phase = .scattering ∨ s.phase = .combining ∨ s.phase = .folding) ∧
    (digestDone s = true ↔ s.phase = .done) ∧ (isAborted s = true ↔ s.phase = .aborted) ∧
    ((statusOutputs s).filter id).length = 1

/-- R84: a host command that is performed or rejected sends exactly one response, a status byte and a payload: none with an
error, none for INIT, ABSORB and ABORT, one byte for STATUS, twenty for RDIGEST; STATUS is never an error. -/
def Obligations.EveryHostCommandSendsOneResponse : Prop :=
  ∀ (i : Instr) (s t : State), opClass i = .hostCommand → exec i s = .next t →
    ∃ r : Response, t.responses = s.responses ++ [r] ∧ responseBytes r = statusCode r.status :: r.payload ∧
      (r.status ≠ .ok → r.payload = [] ∧ t.registers = s.registers) ∧
      (i = .status → r.status = .ok ∧ r.payload = [phaseCode s.phase]) ∧
      (i = .rdigest → r.status = .ok → ∃ d, s.res = .val d ∧ r.payload = List.ofFn (byteAt d)) ∧
      (i ≠ .status → i ≠ .rdigest → r.payload = [])

/-! ## The digest -/

/-- R137: after INIT and the chunks of `FEED s` each accumulator byte is the XOR of the stream bytes at its positions modulo
160, the counter is the length and the phase `Scattering`. -/
def Obligations.FeedAccumulatesByLanes : Prop :=
  ∀ (s : List Byte) (st : State), st.cleanEntry → s.length ≤ 2 ^ 64 - 1 →
    ∃ (t : State) (a : AccBuffer) (c : Count), execAll (.init :: feed s) st = .next t ∧
      t.phase = .scattering ∧ t.acc = .val a ∧ t.cnt = .val c ∧ c.toNat = s.length ∧
      ∀ i : Fin 160, a[i] = laneXor s i

/-- R211: for every stream of at most `2^64 - 1` bytes, `HASH s` from any state that accepts INIT ends in `Done` with
`RES = QXH(s)`, and RDIGEST returns its twenty bytes. The machine runs with `LEN_ORDER = value`. -/
def Obligations.EngineComputesQxh : Prop :=
  ∀ (s : List Byte) (st : State), st.cleanEntry → s.length ≤ 2 ^ 64 - 1 →
    ∃ t : State, execAll (hashScript s) st = .next t ∧ t.phase = .done ∧ t.res = .val (qxh .value s) ∧
      t.responses.getLast? = some (okResponse (List.ofFn (byteAt (qxh .value s))))

/-- R272: from any state that accepts INIT, a host that puts the bytes of INIT and `FEED s` on the port and nothing else
brings the engine, by its own steps, to `Done` with `RES = QXH(s)`: one step for the arrival, one for INIT, one per chunk
and three of the engine's. Every command is answered `OK`. (That the bytes arrive as one event, and the order of steps, are the
model's: log 5, log 6.) -/
def Obligations.UndisturbedRunEndsCompleted : Prop :=
  ∀ (s : List Byte) (st : State), st.cleanEntry → s.length ≤ 2 ^ 64 - 1 → st.port = [] →
    st.input = [.bytes (portBytes (.init :: feed s))] →
    ∃ t : State, Host.Core.run Sys2Proof.core (s.length / 160 + 6) st = .next t ∧ t.phase = .done ∧
      t.res = .val (qxh .value s) ∧ t.undisturbed ∧
      t.responses = st.responses ++ List.replicate (s.length / 160 + 2) (okResponse [])

/-- R211 with `LEN_ORDER` as configured: the computation up to COMBINE, then FOLD under either order, leaves `QXH(s)` under
that order. -/
def Obligations.QxhUnderEitherLengthOrder : Prop :=
  ∀ (order : Config.LenOrder) (s : List Byte) (st : State), st.cleanEntry → s.length ≤ 2 ^ 64 - 1 →
    ∃ u t : State, execAll (.init :: (feed s ++ [.scatter, .combine])) st = .next u ∧ u.res = .val (pre s) ∧
      foldUnder order u = .next t ∧ t.phase = .done ∧ t.res = .val (qxh order s)

/-- R217: flipping bit `b` of byte `t` flips exactly one bit of `PRE`, the one at `((11 t) mod 160 + b) mod 160`, and
exactly one bit of the digest; flipping that bit of byte `t + 160` as well leaves the digest unchanged. -/
def Obligations.FlippedBitFlipsOneDigestBit : Prop :=
  ∀ (order : Config.LenOrder) (s : List Byte) (t b : Nat) (h : t < s.length), b < 8 →
    (∀ q : Nat, q < 160 →
      ((pre (s.set t (s[t] ^^^ ((1 : Byte) <<< b)))).getLsbD q ≠ (pre s).getLsbD q ↔ q = ((11 * t) % 160 + b) % 160)) ∧
    setBits (xorBlock (qxh order (s.set t (s[t] ^^^ ((1 : Byte) <<< b)))) (qxh order s)) = 1 ∧
    ∀ h' : t + 160 < s.length,
      qxh order ((s.set t (s[t] ^^^ ((1 : Byte) <<< b))).set (t + 160) (s[t + 160] ^^^ ((1 : Byte) <<< b))) = qxh order s

/-- R218, the part that is provable: trailing zero bytes leave `PRE` as it is and change the digest. -/
def Obligations.TrailingZeroesChangeTheDigest : Prop :=
  ∀ (order : Config.LenOrder) (s : List Byte) (k : Nat), 0 < k → s.length + k ≤ 2 ^ 64 - 1 →
    pre (s ++ List.replicate k 0) = pre s ∧ qxh order (s ++ List.replicate k 0) ≠ qxh order s

/-- R192: with the same combination, different counts give different digests, under either `LEN_ORDER`; twelve of the
digest's bytes never depend on the count. -/
def Obligations.DifferentLengthsDifferentDigests : Prop :=
  ∀ (order : Config.LenOrder) (h : Block) (c c' : Count), c ≠ c' →
    foldLength order h c ≠ foldLength order h c' ∧
    ∀ j : Fin 20, 8 ≤ j.val → byteAt (foldLength order h c) j = byteAt (foldLength order h c') j

/-- R221: the rotation count has period 160, and a stream of whole chunks followed by itself leaves only the length. -/
def Obligations.RepeatedStreamLeavesOnlyTheLength : Prop :=
  (∀ t : Nat, (11 * (t + 160)) % 160 = (11 * t) % 160) ∧
  ∀ (order : Config.LenOrder) (s : List Byte), s.length % 160 = 0 → 2 * s.length ≤ 2 ^ 64 - 1 →
    pre (s ++ s) = zeroBlock ∧ qxh order (s ++ s) = ext64 order (BitVec.ofNat 64 (2 * s.length))

/-- R214 and R134: the empty stream is INIT and `ABSORB 0`; its digest is the all-zero Block under either `LEN_ORDER`, rendered as
forty zeros, and the engine computes it with no special case. -/
def Obligations.EmptyStreamDigestIsZero : Prop :=
  feed [] = [.absorb 0 []] ∧ (∀ order : Config.LenOrder, qxh order [] = zeroBlock ∧ render (qxh order []) = List.replicate 40 '0') ∧
  ∀ st : State, st.cleanEntry →
    ∃ t : State, execAll (hashBody []) st = .next t ∧ t.phase = .done ∧ t.cnt = .val 0 ∧ t.res = .val zeroBlock

/-- R195: the rendering has 40 characters, pair `u` is byte `19 - u` in two digits, and the whole is the hexadecimal numeral
of the digest's value padded to 40 digits. -/
def Obligations.RenderWritesHighByteFirst : Prop :=
  ∀ d : Block, (render d).length = 40 ∧
    (∀ u : Fin 20,
      (render d)[2 * u.val]? = some (hexDigit ((byteAt d ⟨19 - u.val, by omega⟩).toNat / 16)) ∧
      (render d)[2 * u.val + 1]? = some (hexDigit ((byteAt d ⟨19 - u.val, by omega⟩).toNat % 16))) ∧
    render d = (List.range 40).map fun p => hexDigit (d.toNat / 16 ^ (39 - p) % 16)

/-- R136 and R90: on a stream that honours the read contract, the host's reader loop issues exactly `FEED s`; where a read
fails after full chunks, it issues those chunks and ABORT. -/
def Obligations.ReaderLoopIsFeed : Prop :=
  (∀ (s : List Byte) (k : Nat), s.length / 160 < k → readerLoop (readsOf k s) = feed s) ∧
  ∀ (l : List (List Byte)) (rest : List (Option (List Byte))), (∀ d ∈ l, d.length = 160) →
    readerLoop (l.map some ++ none :: rest) = l.map (.absorb 160) ++ [.abort]

/-- R62: the state after a set of full chunks does not depend on their order. -/
def Obligations.FullChunksCommute : Prop :=
  ∀ (l m : List (List Byte)) (s : State) (a : AccBuffer) (c : Count), l.Perm m → (∀ d ∈ l, d.length = 160) →
    s.phase = .accumulating → s.acc = .val a → s.cnt = .val c → c.toNat + 160 * l.length ≤ 2 ^ 64 - 1 →
    ∃ t : State, execAll (l.map (.absorb 160)) s = .next t ∧ execAll (m.map (.absorb 160)) s = .next t ∧
      t.phase = .accumulating

/-! ## The size of the accumulator -/

/-- R7: the accumulator has as many bits, and bytes, as the block set; and SCATTER gives every accumulator bit one (block,
bit position) pair and every pair one accumulator bit, the same whatever the accumulator holds. -/
def Obligations.AccumulatorFillsTheBlockSet : Prop :=
  Config.accBits = Config.nblocks * Config.blockBits ∧ Config.accBytes = Config.nblocks * Config.blockBytes ∧
  Config.accBytes = 160 ∧ Config.accBits = 1280 ∧ Config.nblocks = 8 ∧ Config.blockBits = 160 ∧
  ∃ wire : Fin 160 × Fin 8 → Fin 8 × Fin 160, Function.Bijective wire ∧
    ∀ (s : State) (a : AccBuffer), s.phase = .scattering → s.acc = .val a →
      ∃ (t : State) (b : BlockSet), exec .scatter s = .next t ∧ t.blk = .val b ∧
        ∀ x : Fin 160 × Fin 8, (b[(wire x).1]).getLsbD (wire x).2.val = (a[x.1]).getLsbD x.2.val

end
end

