-- ==== Sys2Proof/Laws/Block.lean ====
section
/-! SUPPORT. What byte access and the six datapath functions give, bit by bit and byte by byte; the laws of
spec/40_block_primitives.md R116 rest on these. -/

namespace Sys2Proof.Machine

theorem getLsbD_byteOf {w : Nat} (v : BitVec w) (j b : Nat) :
    (byteOf v j).getLsbD b = (decide (b < 8) && v.getLsbD (8 * j + b)) := by
  simp [byteOf]

/-- Bit `t` of a value made from bytes is bit `t mod 8` of byte `t div 8`. -/
theorem getLsbD_ofBytes (w : Nat) (l : List Byte) (t : Nat) :
    (ofBytes w l).getLsbD t = (decide (t < w) && ((l[t / 8]?).getD 0).getLsbD (t % 8)) := by
  induction l generalizing t with
  | nil => simp [ofBytes]
  | cons b rest ih =>
    simp only [ofBytes, BitVec.getLsbD_or, BitVec.getLsbD_shiftLeft, BitVec.getLsbD_setWidth, ih]
    by_cases h : t < 8
    · have h0 : t / 8 = 0 := by omega
      have h1 : t % 8 = t := by omega
      simp [h, h0, h1]
    · obtain ⟨u, rfl⟩ : ∃ u, t = u + 8 := ⟨t - 8, by omega⟩
      have h0 : (u + 8) / 8 = u / 8 + 1 := by omega
      have h1 : (u + 8) % 8 = u % 8 := by omega
      by_cases hw : u + 8 < w
      · simp [h0, h1, hw, show u < w by omega]
      · simp [h0, h1, hw]

theorem getLsbD_blockOf (f : Fin 20 → Byte) (t : Nat) (h : t < 160) :
    (blockOf f).getLsbD t = (f ⟨t / 8, by omega⟩).getLsbD (t % 8) := by
  rw [blockOf, getLsbD_ofBytes, List.getElem?_ofFn, dif_pos (by omega : t / 8 < 20)]
  simp [h]

/-- Bit `b` of byte `j` is Block bit `8 j + b` (R26). -/
theorem getLsbD_byteAt (x : Block) (j : Fin 20) (b : Nat) :
    (byteAt x j).getLsbD b = (decide (b < 8) && x.getLsbD (8 * j + b)) := getLsbD_byteOf x j b

/-- Block bit `t` is bit `t mod 8` of byte `t div 8` (R26). -/
theorem getLsbD_eq_byteAt (x : Block) (t : Nat) (h : t < 160) :
    x.getLsbD t = (byteAt x ⟨t / 8, by omega⟩).getLsbD (t % 8) := by
  rw [getLsbD_byteAt]
  simp [show t % 8 < 8 by omega, show 8 * (t / 8) + t % 8 = t by omega]

@[simp] theorem byteAt_blockOf (f : Fin 20 → Byte) (j : Fin 20) : byteAt (blockOf f) j = f j := by
  ext b hb
  have h : 8 * j.val + b < 160 := by omega
  rw [← BitVec.getLsbD_eq_getElem, ← BitVec.getLsbD_eq_getElem, getLsbD_byteAt, getLsbD_blockOf _ _ h]
  simp [hb, show (8 * j.val + b) / 8 = j.val by omega, show (8 * j.val + b) % 8 = b by omega]

/-- Two Blocks with the same bytes are the same Block (R117). -/
theorem block_ext {a b : Block} (h : ∀ j, byteAt a j = byteAt b j) : a = b := by
  apply BitVec.eq_of_getLsbD_eq
  intro t ht
  rw [getLsbD_eq_byteAt a t ht, getLsbD_eq_byteAt b t ht, h]

@[simp] theorem blockOf_byteAt (b : Block) : blockOf (byteAt b) = b := block_ext fun j => byteAt_blockOf _ j

@[simp] theorem byteAt_setByte (b : Block) (o j : Fin 20) (x : Byte) :
    byteAt (setByte b o x) j = if j = o then x else byteAt b j := by simp [setByte]

@[simp] theorem byteAt_zeroBlock (j : Fin 20) : byteAt zeroBlock j = 0 := by
  ext b hb; simp [byteAt, byteOf, zeroBlock]

@[simp] theorem byteAt_xorBlock (a b : Block) (j : Fin 20) :
    byteAt (xorBlock a b) j = byteAt a j ^^^ byteAt b j := by
  ext t ht; simp [byteAt, byteOf, xorBlock]

@[simp] theorem byteAt_brev (b : Block) (j : Fin 20) : byteAt (brev b) j = byteAt b j.rev := by simp [brev]

@[simp] theorem byteAt_ext8 (x : Byte) (j : Fin 20) : byteAt (ext8 x) j = if j = 0 then x else 0 := by simp [ext8]

theorem byteAt_ext64_value (l : Count) (j : Fin 20) :
    byteAt (ext64 .value l) j = if j.val < 8 then byteOf l j else 0 := by simp [ext64]

theorem byteAt_ext64_swapped (l : Count) (j : Fin 20) :
    byteAt (ext64 .swapped l) j = if j.val < 8 then byteOf l (7 - j) else 0 := by simp [ext64]

theorem getLsbD_xorBlock (a b : Block) (t : Nat) :
    (xorBlock a b).getLsbD t = (a.getLsbD t ^^ b.getLsbD t) := by simp [xorBlock]

/-- Bit `t` of a rotation by `n` is bit `(t - n) mod 160` (R112). -/
theorem getLsbD_rotl (b : Block) (n : Fin 160) (t : Nat) (ht : t < 160) :
    (rotl b n).getLsbD t = b.getLsbD ((t + (160 - n.val)) % 160) := by
  unfold rotl
  split
  · next h => subst h; simp [Nat.mod_eq_of_lt ht]
  · next h =>
    have hn : 0 < n.val := Nat.pos_of_ne_zero fun e => h (Fin.ext e)
    have hn' : n.val < 160 := n.isLt
    simp only [BitVec.getLsbD_or, BitVec.getLsbD_shiftLeft, BitVec.getLsbD_ushiftRight]
    by_cases hlt : t < n.val
    · have h1 : (t + (160 - n.val)) % 160 = 160 - n.val + t := by omega
      simp [h1, hlt]
    · have h1 : (t + (160 - n.val)) % 160 = t - n.val := by omega
      have h2 : b.getLsbD (160 - n.val + t) = false := BitVec.getLsbD_of_ge b _ (by omega)
      simp [h1, hlt, h2, ht]

theorem getLsbD_brev (b : Block) (t : Nat) (ht : t < 160) :
    (brev b).getLsbD t = b.getLsbD (8 * (19 - t / 8) + t % 8) := by
  rw [brev, getLsbD_blockOf _ _ ht, getLsbD_byteAt]
  simp [Fin.val_rev, show t % 8 < 8 by omega, show 20 - (t / 8 + 1) = 19 - t / 8 by omega]

theorem getLsbD_ext8 (x : Byte) (t : Nat) (ht : t < 160) : (ext8 x).getLsbD t = x.getLsbD t := by
  rw [ext8, getLsbD_blockOf _ _ ht]
  by_cases h : t < 8
  · simp [show t / 8 = 0 by omega, show t % 8 = t by omega]
  · have : (⟨t / 8, by omega⟩ : Fin 20) ≠ 0 := by
      intro e; have := congrArg Fin.val e; simp at this; omega
    simp [this, BitVec.getLsbD_of_ge x t (by omega)]

/-- Equality of Blocks bit by bit, below 160. -/
theorem block_eq_of_bits {a b : Block} (h : ∀ t, t < 160 → a.getLsbD t = b.getLsbD t) : a = b :=
  BitVec.eq_of_getLsbD_eq h

/-! ## The laws of R116 -/

theorem xorBlock_comm (a b : Block) : xorBlock a b = xorBlock b a := BitVec.xor_comm a b

theorem xorBlock_assoc (a b c : Block) : xorBlock (xorBlock a b) c = xorBlock a (xorBlock b c) := BitVec.xor_assoc a b c

@[simp] theorem xorBlock_zero (a : Block) : xorBlock a zeroBlock = a := BitVec.xor_zero

@[simp] theorem zero_xorBlock (a : Block) : xorBlock zeroBlock a = a := BitVec.zero_xor

@[simp] theorem xorBlock_self (a : Block) : xorBlock a a = zeroBlock := BitVec.xor_self

theorem rotl_xorBlock (a b : Block) (n : Fin 160) : rotl (xorBlock a b) n = xorBlock (rotl a n) (rotl b n) := by
  apply block_eq_of_bits
  intro t ht
  simp [getLsbD_rotl _ _ _ ht, getLsbD_xorBlock]

theorem rotl_rotl (b : Block) (m n : Fin 160) : rotl (rotl b m) n = rotl b (m + n) := by
  apply block_eq_of_bits
  intro t ht
  rw [getLsbD_rotl _ _ _ ht, getLsbD_rotl _ _ _ (Nat.mod_lt _ (by decide)), getLsbD_rotl _ _ _ ht]
  congr 1
  rw [Fin.val_add]
  omega

@[simp] theorem rotl_zero (b : Block) : rotl b 0 = b := by simp [rotl]

@[simp] theorem rotl_zeroBlock (n : Fin 160) : rotl zeroBlock n = zeroBlock := by
  apply block_eq_of_bits
  intro t ht
  rw [getLsbD_rotl _ _ _ ht]
  simp [zeroBlock]

theorem brev_xorBlock (a b : Block) : brev (xorBlock a b) = xorBlock (brev a) (brev b) :=
  block_ext fun j => by simp

@[simp] theorem brev_brev (b : Block) : brev (brev b) = b := block_ext fun j => by simp

@[simp] theorem brev_zeroBlock : brev zeroBlock = zeroBlock := block_ext fun j => by simp

theorem ext8_xor (x y : Byte) : ext8 (x ^^^ y) = xorBlock (ext8 x) (ext8 y) :=
  block_ext fun j => by by_cases h : j = 0 <;> simp [h]

@[simp] theorem ext8_zero : ext8 0#8 = zeroBlock := block_ext fun j => by simp

/-- Under `value` the length block is the zero-extension of the counter (R115). -/
theorem ext64_value_eq (l : Count) : ext64 .value l = l.setWidth 160 := by
  apply block_eq_of_bits
  intro t ht
  rw [ext64, getLsbD_blockOf _ _ ht]
  by_cases h : t / 8 < 8
  · simp only [h, if_true, getLsbD_byteOf, BitVec.getLsbD_setWidth]
    simp [show t % 8 < 8 by omega, show 8 * (t / 8) + t % 8 = t by omega, ht]
  · simp [h, BitVec.getLsbD_of_ge l t (by omega)]

/-! ## Bytes and back -/

@[simp] theorem toBytes_length {w : Nat} (k : Nat) (v : BitVec w) : (toBytes k v).length = k := by simp [toBytes]

theorem getElem?_toBytes {w : Nat} (k : Nat) (v : BitVec w) (j : Nat) (h : j < k) :
    (toBytes k v)[j]? = some (byteOf v j) := by simp [toBytes, h]

/-- A value of `8 k` bits is made from its own `k` bytes. -/
theorem ofBytes_toBytes {w : Nat} (k : Nat) (v : BitVec w) (h : w = 8 * k) : ofBytes w (toBytes k v) = v := by
  apply BitVec.eq_of_getLsbD_eq
  intro t ht
  rw [getLsbD_ofBytes, getElem?_toBytes k v _ (by omega), Option.getD_some, getLsbD_byteOf]
  simp [ht, show t % 8 < 8 by omega, show 8 * (t / 8) + t % 8 = t by omega]

theorem toBytes_eq_ofFn (b : Block) : toBytes 20 b = List.ofFn (byteAt b) := by
  simp [toBytes, byteAt, List.range_succ, List.ofFn_succ]

/-! ## The length block determines the counter (R192) -/

theorem xorBlock_left_cancel {a b c : Block} (h : xorBlock a b = xorBlock a c) : b = c := by
  have := congrArg (xorBlock a) h
  simpa [← xorBlock_assoc] using this

theorem ext64_injective (o : Config.LenOrder) {c c' : Count} (h : ext64 o c = ext64 o c') : c = c' := by
  have hb : ∀ j : Nat, j < 8 → byteOf c j = byteOf c' j := by
    intro j hj
    cases o
    · have := congrArg (byteAt · ⟨j, by omega⟩) h
      simpa [byteAt_ext64_value, hj] using this
    · have := congrArg (byteAt · ⟨7 - j, by omega⟩) h
      simp only [byteAt_ext64_swapped, show 7 - j < 8 by omega, if_true, show 7 - (7 - j) = j by omega] at this
      exact this
  apply BitVec.eq_of_getLsbD_eq
  intro t ht
  have := congrArg (·.getLsbD (t % 8)) (hb (t / 8) (by omega))
  simp only [getLsbD_byteOf, show t % 8 < 8 by omega, show 8 * (t / 8) + t % 8 = t by omega] at this
  simpa using this

end Sys2Proof.Machine
end

