-- ==== Sys2Proof/Laws/Decode.lean ====
section
/-! SUPPORT. What the decoders do on the front of a byte list (spec/30_encoding.md R87, R92). -/

namespace Sys2Proof

/-- An operand of whole bytes is read back from its own bytes, whatever follows. -/
theorem takeOperand_toBytes {w : Nat} (k : Nat) (v : BitVec w) (rest : List Byte) (h : w = 8 * k) :
    takeOperand w k (Machine.toBytes k v ++ rest) = some (v, rest) := by
  have hl : (Machine.toBytes k v).length = k := Machine.toBytes_length k v
  have h1 : ¬ (Machine.toBytes k v ++ rest).length < k := by rw [List.length_append, hl]; omega
  rw [takeOperand, if_neg h1, List.take_left' hl, List.drop_left' hl, Machine.ofBytes_toBytes k v h]

/-- A one-byte operand. -/
theorem takeOperand_byte (b : Byte) (rest : List Byte) : takeOperand 8 1 (b :: rest) = some (b, rest) := by
  have h : [b] = Machine.toBytes 1 b := by
    simp [Machine.toBytes, Machine.byteOf]
  exact (congrArg (takeOperand 8 1 <| · ++ rest) h).trans (takeOperand_toBytes 1 b rest rfl)

/-- What `decodeChunk` finds, case by case (R83, R86, R87). -/
theorem decodeChunk_cons (n : Byte) (d : List Byte) :
    (160 < n.toNat ∧ decodeChunk (n :: d) = .rejected .eLength d) ∨
    (n.toNat ≤ 160 ∧ d.length < n.toNat ∧ decodeChunk (n :: d) = .incomplete) ∨
    (n.toNat ≤ 160 ∧ n.toNat ≤ d.length ∧
      decodeChunk (n :: d) = .command (.absorb n.toNat (d.take n.toNat)) (d.drop n.toNat)) := by
  simp only [decodeChunk, Config.chunk]
  by_cases h : 160 < n.toNat
  · simp [h]
  · by_cases h2 : d.length < n.toNat
    · simp [h, h2]; omega
    · simp [h, h2]; omega

/-- The port's decoder by the first byte (R82, R86). -/
theorem decodePort_cons (b : Byte) (rest : List Byte) :
    (b = 1 ∧ decodePort (b :: rest) = .command .init rest) ∨ (b = 2 ∧ decodePort (b :: rest) = decodeChunk rest) ∨
    (b = 3 ∧ decodePort (b :: rest) = .command .abort rest) ∨ (b = 4 ∧ decodePort (b :: rest) = .command .status rest) ∨
    (b = 5 ∧ decodePort (b :: rest) = .command .rdigest rest) ∨
    (b ≠ 1 ∧ b ≠ 2 ∧ b ≠ 3 ∧ b ≠ 4 ∧ b ≠ 5 ∧ decodePort (b :: rest) = .rejected .eOpcode rest) := by
  have eq : ∀ k : Nat, k < 256 → (b.toNat = k ↔ b = BitVec.ofNat 8 k) := by
    intro k hk
    constructor
    · rintro rfl; simp
    · rintro rfl; simp [Nat.mod_eq_of_lt hk]
  simp only [decodePort]
  split
  · next h => exact .inl ⟨(eq 1 (by omega)).1 h, rfl⟩
  · next h => exact .inr (.inl ⟨(eq 2 (by omega)).1 h, rfl⟩)
  · next h => exact .inr (.inr (.inl ⟨(eq 3 (by omega)).1 h, rfl⟩))
  · next h => exact .inr (.inr (.inr (.inl ⟨(eq 4 (by omega)).1 h, rfl⟩)))
  · next h => exact .inr (.inr (.inr (.inr (.inl ⟨(eq 5 (by omega)).1 h, rfl⟩))))
  · next h1 h2 h3 h4 h5 =>
    refine .inr (.inr (.inr (.inr (.inr ⟨?_, ?_, ?_, ?_, ?_, rfl⟩))))
    · exact fun e => h1 ((eq 1 (by omega)).2 e)
    · exact fun e => h2 ((eq 2 (by omega)).2 e)
    · exact fun e => h3 ((eq 3 (by omega)).2 e)
    · exact fun e => h4 ((eq 4 (by omega)).2 e)
    · exact fun e => h5 ((eq 5 (by omega)).2 e)

/-- Only a host command is ever read from the port (R82). -/
theorem decodePort_command_class {bs rest : List Byte} {i : Instr} (h : decodePort bs = .command i rest) :
    opClass i = .hostCommand := by
  cases bs with
  | nil => cases h
  | cons b bs =>
    obtain ⟨-, e⟩ | ⟨-, e⟩ | ⟨-, e⟩ | ⟨-, e⟩ | ⟨-, e⟩ | ⟨-, -, -, -, -, e⟩ := decodePort_cons b bs <;> rw [e] at h
    case inr.inl =>
      cases bs with
      | nil => cases h
      | cons n d =>
        obtain ⟨-, e'⟩ | ⟨-, -, e'⟩ | ⟨-, -, e'⟩ := decodeChunk_cons n d <;> rw [e'] at h <;> cases h
        rfl
    all_goals first | (cases h; rfl) | cases h

end Sys2Proof
end

