-- ==== Sys2Proof/Laws/Scatter.lean ====
section
/-! SUPPORT. The scatter map is a bijection (spec/42_bit_scatter.md R153), so the walk of R150 leaves in every slot the byte
of its own index (R155); and XOR over a list of Blocks, in which Rotate-and-Combine is said in closed form
(spec/43_rotate_combine.md R173). -/

namespace Sys2Proof.Machine

theorem sigma_eq_iff (i : Fin 160) (k : Fin 8) (o : Fin 20) : sigma i = (k, o) ↔ i = sigmaInv k o := by
  constructor
  · intro h; rw [← sigmaInv_sigma i, h]
  · rintro rfl; exact sigma_sigmaInv k o

set_option maxRecDepth 4000 in
/-- `8 o + k`, the Block bit at which bit 0 of an accumulator byte ends up, is its rotation count (R151, R173). -/
theorem rotationOf_sigmaInv : ∀ (k : Fin 8) (o : Fin 20), (rotationOf (sigmaInv k o)).val = 8 * o.val + k.val := by decide

theorem writeSlot_byte (b : BlockSet) (slot : Fin 8 × Fin 20) (x : Byte) (k : Fin 8) (o : Fin 20) :
    byteAt (writeSlot b slot x)[k] o = if slot = (k, o) then x else byteAt b[k] o := by
  obtain ⟨k', o'⟩ := slot
  by_cases hk : k' = k
  · subst hk; simp [writeSlot, eq_comm]
  · have : k'.val ≠ k.val := fun h => hk (Fin.ext h)
    simp [writeSlot, hk, this]

/-- The walk over any list of indices: a slot holds its own index's byte if that index was walked, else what it held. -/
theorem scatterWalk_byte (a : AccBuffer) (l : List (Fin 160)) (b : BlockSet) (k : Fin 8) (o : Fin 20) :
    byteAt (l.foldl (fun b i => writeSlot b (sigma i) a[i]) b)[k] o =
      if sigmaInv k o ∈ l then a[sigmaInv k o] else byteAt b[k] o := by
  induction l generalizing b with
  | nil => simp
  | cons i rest ih =>
    rw [List.foldl_cons, ih, writeSlot_byte]
    by_cases h : sigmaInv k o ∈ rest
    · simp [h]
    · by_cases hi : i = sigmaInv k o
      · subst hi; simp [sigma_sigmaInv]
      · have : sigma i ≠ (k, o) := fun e => hi ((sigma_eq_iff i k o).1 e)
        simp [h, this, Ne.symm hi]

/-- After SCATTER every slot holds the accumulator byte of the inverse map's index (R155). -/
theorem scatterBytes_byte (a : AccBuffer) (k : Fin 8) (o : Fin 20) :
    byteAt (scatterBytes a)[k] o = a[sigmaInv k o] := by
  rw [scatterBytes, scatterWalk_byte]
  simp

/-- An accumulator byte is found by its index alone. -/
theorem acc_get_congr (a : AccBuffer) {i j : Fin 160} (h : i = j) : a[i] = a[j] := by subst h; rfl

/-- After SCATTER accumulator byte `i` stands at its slot `SIGMA(i)` (R150). -/
theorem scatterBytes_sigma (a : AccBuffer) (i : Fin 160) : byteAt (scatterBytes a)[(sigma i).1] (sigma i).2 = a[i] :=
  (scatterBytes_byte a _ _).trans (acc_get_congr a (sigmaInv_sigma i))

/-! ## XOR over a list of Blocks -/

@[simp] theorem xorAll_nil : xorAll [] = zeroBlock := rfl

@[simp] theorem xorAll_cons (b : Block) (l : List Block) : xorAll (b :: l) = xorBlock b (xorAll l) := rfl

theorem xorAll_append (l m : List Block) : xorAll (l ++ m) = xorBlock (xorAll l) (xorAll m) := by
  induction l with
  | nil => simp
  | cons b l ih => simp [ih, xorBlock_assoc]

theorem xorBlock_left_comm (a b c : Block) : xorBlock a (xorBlock b c) = xorBlock b (xorBlock a c) := by
  rw [← xorBlock_assoc, xorBlock_comm a b, xorBlock_assoc]

/-- The order of combination does not matter (R171). -/
theorem xorAll_perm {l m : List Block} (h : l.Perm m) : xorAll l = xorAll m := by
  induction h with
  | nil => rfl
  | cons b _ ih => simp [ih]
  | swap a b l => simp [xorBlock_left_comm]
  | trans _ _ ih1 ih2 => exact ih1.trans ih2

theorem rotl_xorAll (l : List Block) (n : Fin 160) : rotl (xorAll l) n = xorAll (l.map (rotl · n)) := by
  induction l with
  | nil => simp
  | cons b l ih => simp [rotl_xorBlock, ih]

theorem xorAll_map_xor {α : Type} (f g : α → Block) (l : List α) :
    xorAll (l.map fun x => xorBlock (f x) (g x)) = xorBlock (xorAll (l.map f)) (xorAll (l.map g)) := by
  induction l with
  | nil => simp
  | cons x l ih => simp only [List.map_cons, xorAll_cons, ih, xorBlock_assoc, xorBlock_left_comm]

theorem xorAll_flatMap {α : Type} (f : α → List Block) (l : List α) :
    xorAll (l.flatMap f) = xorAll (l.map fun x => xorAll (f x)) := by
  induction l with
  | nil => simp
  | cons x l ih => simp [xorAll_append, ih]

theorem byteAt_xorAll (l : List Block) (j : Fin 20) :
    byteAt (xorAll l) j = (l.map (byteAt · j)).foldr (· ^^^ ·) 0 := by
  induction l with
  | nil => simp
  | cons b l ih => simp [ih]

theorem getLsbD_xorAll (l : List Block) (t : Nat) :
    (xorAll l).getLsbD t = (l.map (·.getLsbD t)).foldr (· ^^ ·) false := by
  induction l with
  | nil => simp [zeroBlock]
  | cons b l ih => simp [getLsbD_xorBlock, ih]

/-- A byte rotated by whole bytes is that byte at another index (R116 law 8, R112). -/
theorem byteAt_rotl_ext8 (x : Byte) (o j : Fin 20) :
    byteAt (rotl (ext8 x) ⟨8 * o.val, by omega⟩) j = if j = o then x else 0 := by
  ext b hb
  have ht : 8 * j.val + b < 160 := by omega
  rw [← BitVec.getLsbD_eq_getElem, ← BitVec.getLsbD_eq_getElem, getLsbD_byteAt, getLsbD_rotl _ _ _ ht,
    getLsbD_ext8 _ _ (Nat.mod_lt _ (by decide))]
  by_cases h : j = o
  · subst h
    simp [hb, show (8 * j.val + b + (160 - 8 * j.val)) % 160 = b by omega]
  · have hne : j.val ≠ o.val := fun e => h (Fin.ext e)
    have : 8 ≤ (8 * j.val + b + (160 - 8 * o.val)) % 160 := by omega
    simp [hb, h, BitVec.getLsbD_of_ge x _ this]

/-- A Block is the exclusive or of its bytes, each put in its place. -/
theorem block_eq_xorAll (b : Block) :
    b = xorAll ((List.finRange 20).map fun o => rotl (ext8 (byteAt b o)) ⟨8 * o.val, by omega⟩) := by
  apply block_ext
  intro j
  rw [byteAt_xorAll, List.map_map]
  simp only [Function.comp_def, byteAt_rotl_ext8]
  fin_cases j <;> simp [List.finRange_succ, List.finRange_zero]

/-- The sum over the accumulator's bytes, each as a Block rotated by `(11 i) mod 160` bits (R173). -/
def preAcc (a : AccBuffer) : Block :=
  xorAll ((List.finRange 160).map fun i : Fin 160 => rotl (ext8 a[i]) (rotationOf i.val))

/-- The slots' indices, block by block, are the accumulator's indices in another order (R153). -/
def slotIndices : List (Fin 160) := (List.finRange 8).flatMap fun k => (List.finRange 20).map fun o => sigmaInv k o

set_option maxRecDepth 100000 in
theorem slotIndices_perm : slotIndices.Perm (List.finRange 160) := by decide

/-- COMBINE is the exclusive or of the eight rotated blocks (R170, R171). -/
theorem combineBlocks_eq_xorAll (b : BlockSet) :
    combineBlocks b = xorAll ((List.finRange 8).map fun k => rotl b[k] ⟨k.val, by omega⟩) := by
  simp [combineBlocks, List.finRange_succ, List.finRange_zero, xorBlock_assoc]

/-- One rotated block of the scattered accumulator, byte by byte. -/
theorem rotl_scattered (a : AccBuffer) (k : Fin 8) :
    rotl (scatterBytes a)[k] ⟨k.val, by omega⟩ =
      xorAll ((List.finRange 20).map fun o => rotl (ext8 a[sigmaInv k o]) (rotationOf (sigmaInv k o).val)) := by
  rw [block_eq_xorAll (scatterBytes a)[k], rotl_xorAll, List.map_map]
  congr 1
  apply List.map_congr_left
  intro o _
  simp only [Function.comp_def, rotl_rotl, scatterBytes_byte]
  congr 1
  apply Fin.ext
  rw [rotationOf_sigmaInv, Fin.val_add]
  simp only
  omega

/-- SCATTER then COMBINE in closed form (R173). -/
theorem combine_scatter (a : AccBuffer) : combineBlocks (scatterBytes a) = preAcc a := by
  have h : preAcc a = xorAll (slotIndices.map fun i : Fin 160 => rotl (ext8 a[i]) (rotationOf i.val)) :=
    xorAll_perm (slotIndices_perm.symm.map _)
  rw [h, combineBlocks_eq_xorAll, slotIndices, List.map_flatMap, xorAll_flatMap]
  refine congrArg xorAll (List.map_congr_left fun k _ => ?_)
  rw [rotl_scattered, List.map_map]
  rfl

end Sys2Proof.Machine
end

