-- ==== Sys2Proof/Laws/Digest.lean ====
section
/-! SUPPORT. How the closed form `PRE` splits over the stream (spec/45_digest_function.md R210, R221) and how a chunk moves
the accumulator's closed form. -/

namespace Sys2Proof.Machine

/-- The rotation count has period 160 (R221). -/
theorem rotationOf_add_period (t : Nat) : rotationOf (t + 160) = rotationOf t := by
  apply Fin.ext; simp only [rotationOf, Config.scatterStep]; omega

theorem preFrom_period (t : Nat) (s : List Byte) : preFrom (t + 160) s = preFrom t s := by
  induction s generalizing t with
  | nil => rfl
  | cons b s ih => rw [preFrom, preFrom, rotationOf_add_period, show t + 160 + 1 = t + 1 + 160 by omega, ih]

theorem preFrom_append (t : Nat) (s u : List Byte) :
    preFrom t (s ++ u) = xorBlock (preFrom t s) (preFrom (t + s.length) u) := by
  induction s generalizing t with
  | nil => simp [preFrom]
  | cons b s ih =>
    rw [List.cons_append, preFrom, preFrom, ih, xorBlock_assoc, List.length_cons,
      show t + 1 + s.length = t + (s.length + 1) by omega]

/-- A full chunk shifts the rest of the stream by a whole period. -/
theorem pre_append_chunk (d s : List Byte) (h : d.length = 160) : pre (d ++ s) = xorBlock (pre d) (pre s) := by
  rw [pre, preFrom_append, h, preFrom_period]; rfl

/-- `PRE` of a list no longer than `n`, over `n` positions, the missing bytes being zero. -/
theorem preFrom_padded (n t : Nat) (d : List Byte) (h : d.length ≤ n) :
    preFrom t d = xorAll ((List.range' t n).map fun i => rotl (ext8 ((d[i - t]?).getD 0)) (rotationOf i)) := by
  induction n generalizing t d with
  | zero => obtain rfl := List.length_eq_zero_iff.1 (Nat.le_zero.1 h); rfl
  | succ n ih =>
    rw [List.range'_succ, List.map_cons, xorAll_cons]
    have shift : ∀ e : List Byte, ((List.range' (t + 1) n).map fun i => rotl (ext8 ((d[i - t]?).getD 0)) (rotationOf i)) =
        (List.range' (t + 1) n).map fun i => rotl (ext8 ((d.tail[i - (t + 1)]?).getD 0)) (rotationOf i) := by
      intro _
      apply List.map_congr_left
      intro i hi
      have : i - t = (i - (t + 1)) + 1 := by have := (List.mem_range'_1.1 hi).1; omega
      rw [this, ← List.getElem?_tail]
    rw [shift d, ← ih (t + 1) d.tail (by simpa using Nat.sub_le_of_le_add h)]
    cases d with
    | nil => simp [preFrom]
    | cons b d => simp [preFrom]

/-- `PRE` of one chunk, as the sum over the accumulator's lanes. -/
theorem pre_chunk (d : List Byte) (h : d.length ≤ 160) :
    pre d = xorAll ((List.finRange 160).map fun i : Fin 160 => rotl (ext8 (chunkByte d i)) (rotationOf i.val)) := by
  rw [pre, preFrom_padded 160 0 d h, ← List.range_eq_range']
  conv_lhs => rw [← List.map_coe_finRange_eq_range, List.map_map]
  rfl

@[simp] theorem absorbBytes_get (a : AccBuffer) (d : List Byte) (i : Fin 160) :
    (absorbBytes a d)[i] = a[i] ^^^ chunkByte d i := by simp [absorbBytes]

/-- A chunk XORs its own closed form into the accumulator's. -/
theorem preAcc_absorbBytes (a : AccBuffer) (d : List Byte) (h : d.length ≤ 160) :
    preAcc (absorbBytes a d) = xorBlock (preAcc a) (pre d) := by
  rw [pre_chunk d h, preAcc, preAcc, ← xorAll_map_xor]
  simp only [absorbBytes_get, ext8_xor, rotl_xorBlock]

theorem xorAll_zeroes {α : Type} (l : List α) : xorAll (l.map fun _ => zeroBlock) = zeroBlock := by
  induction l with
  | nil => rfl
  | cons x l ih => rw [List.map_cons, xorAll_cons, ih, xorBlock_zero]

@[simp] theorem preAcc_zero : preAcc (Vector.replicate 160 0#8) = zeroBlock := by
  rw [preAcc, ← xorAll_zeroes (List.finRange 160)]
  refine congrArg xorAll (List.map_congr_left fun i _ => ?_)
  rw [show (Vector.replicate 160 0#8)[i] = 0#8 by simp, ext8_zero, rotl_zeroBlock]

/-- Zero bytes contribute nothing (R218). -/
theorem preFrom_zeroes (t k : Nat) : preFrom t (List.replicate k 0) = zeroBlock := by
  induction k generalizing t with
  | zero => rfl
  | succ k ih => rw [List.replicate_succ, preFrom, ih]; simp

/-- Changing one byte of the stream by `x` changes the closed form by `x` in its place (R217). -/
theorem preFrom_set (s : List Byte) (t u : Nat) (x : Byte) (h : t < s.length) :
    preFrom u (s.set t (s[t] ^^^ x)) = xorBlock (preFrom u s) (rotl (ext8 x) (rotationOf (u + t))) := by
  induction s generalizing t u with
  | nil => simp at h
  | cons b s ih =>
    cases t with
    | zero =>
      simp only [List.set_cons_zero, List.getElem_cons_zero, preFrom, ext8_xor, rotl_xorBlock, Nat.add_zero, xorBlock_assoc]
      congr 1; exact xorBlock_comm _ _
    | succ t =>
      simp only [List.set_cons_succ, List.getElem_cons_succ, preFrom]
      rw [ih _ _ (by simpa using h), ← xorBlock_assoc, show u + 1 + t = u + (t + 1) by omega]

end Sys2Proof.Machine
end

