-- ==== Sys2Proof/Laws/State.lean ====
section
/-! SUPPORT. What each write of `Machine/Ops.lean` makes of each field: one lemma per field per write. -/

namespace Sys2Proof.Machine

variable (s : State)

@[simp] theorem State.setPhase_phase (p : Phase) : (s.setPhase p).phase = p := rfl
@[simp] theorem State.setPhase_acc (p : Phase) : (s.setPhase p).acc = s.acc := rfl
@[simp] theorem State.setPhase_cnt (p : Phase) : (s.setPhase p).cnt = s.cnt := rfl
@[simp] theorem State.setPhase_blk (p : Phase) : (s.setPhase p).blk = s.blk := rfl
@[simp] theorem State.setPhase_res (p : Phase) : (s.setPhase p).res = s.res := rfl
@[simp] theorem State.setPhase_input (p : Phase) : (s.setPhase p).input = s.input := rfl
@[simp] theorem State.setPhase_port (p : Phase) : (s.setPhase p).port = s.port := rfl
@[simp] theorem State.setPhase_responses (p : Phase) : (s.setPhase p).responses = s.responses := rfl
@[simp] theorem State.setPhase_values (p : Phase) : (s.setPhase p).values = s.values := rfl

@[simp] theorem State.setAcc_phase (a : Reg AccBuffer) : (s.setAcc a).phase = s.phase := rfl
@[simp] theorem State.setAcc_acc (a : Reg AccBuffer) : (s.setAcc a).acc = a := rfl
@[simp] theorem State.setAcc_cnt (a : Reg AccBuffer) : (s.setAcc a).cnt = s.cnt := rfl
@[simp] theorem State.setAcc_blk (a : Reg AccBuffer) : (s.setAcc a).blk = s.blk := rfl
@[simp] theorem State.setAcc_res (a : Reg AccBuffer) : (s.setAcc a).res = s.res := rfl
@[simp] theorem State.setAcc_input (a : Reg AccBuffer) : (s.setAcc a).input = s.input := rfl
@[simp] theorem State.setAcc_port (a : Reg AccBuffer) : (s.setAcc a).port = s.port := rfl
@[simp] theorem State.setAcc_responses (a : Reg AccBuffer) : (s.setAcc a).responses = s.responses := rfl
@[simp] theorem State.setAcc_values (a : Reg AccBuffer) : (s.setAcc a).values = s.values := rfl

@[simp] theorem State.setCnt_phase (c : Reg Count) : (s.setCnt c).phase = s.phase := rfl
@[simp] theorem State.setCnt_acc (c : Reg Count) : (s.setCnt c).acc = s.acc := rfl
@[simp] theorem State.setCnt_cnt (c : Reg Count) : (s.setCnt c).cnt = c := rfl
@[simp] theorem State.setCnt_blk (c : Reg Count) : (s.setCnt c).blk = s.blk := rfl
@[simp] theorem State.setCnt_res (c : Reg Count) : (s.setCnt c).res = s.res := rfl
@[simp] theorem State.setCnt_input (c : Reg Count) : (s.setCnt c).input = s.input := rfl
@[simp] theorem State.setCnt_port (c : Reg Count) : (s.setCnt c).port = s.port := rfl
@[simp] theorem State.setCnt_responses (c : Reg Count) : (s.setCnt c).responses = s.responses := rfl
@[simp] theorem State.setCnt_values (c : Reg Count) : (s.setCnt c).values = s.values := rfl

@[simp] theorem State.setBlk_phase (b : Reg BlockSet) : (s.setBlk b).phase = s.phase := rfl
@[simp] theorem State.setBlk_acc (b : Reg BlockSet) : (s.setBlk b).acc = s.acc := rfl
@[simp] theorem State.setBlk_cnt (b : Reg BlockSet) : (s.setBlk b).cnt = s.cnt := rfl
@[simp] theorem State.setBlk_blk (b : Reg BlockSet) : (s.setBlk b).blk = b := rfl
@[simp] theorem State.setBlk_res (b : Reg BlockSet) : (s.setBlk b).res = s.res := rfl
@[simp] theorem State.setBlk_input (b : Reg BlockSet) : (s.setBlk b).input = s.input := rfl
@[simp] theorem State.setBlk_port (b : Reg BlockSet) : (s.setBlk b).port = s.port := rfl
@[simp] theorem State.setBlk_responses (b : Reg BlockSet) : (s.setBlk b).responses = s.responses := rfl
@[simp] theorem State.setBlk_values (b : Reg BlockSet) : (s.setBlk b).values = s.values := rfl

@[simp] theorem State.setRes_phase (r : Reg Block) : (s.setRes r).phase = s.phase := rfl
@[simp] theorem State.setRes_acc (r : Reg Block) : (s.setRes r).acc = s.acc := rfl
@[simp] theorem State.setRes_cnt (r : Reg Block) : (s.setRes r).cnt = s.cnt := rfl
@[simp] theorem State.setRes_blk (r : Reg Block) : (s.setRes r).blk = s.blk := rfl
@[simp] theorem State.setRes_res (r : Reg Block) : (s.setRes r).res = r := rfl
@[simp] theorem State.setRes_input (r : Reg Block) : (s.setRes r).input = s.input := rfl
@[simp] theorem State.setRes_port (r : Reg Block) : (s.setRes r).port = s.port := rfl
@[simp] theorem State.setRes_responses (r : Reg Block) : (s.setRes r).responses = s.responses := rfl
@[simp] theorem State.setRes_values (r : Reg Block) : (s.setRes r).values = s.values := rfl

@[simp] theorem State.setInput_phase (w : List Input) : (s.setInput w).phase = s.phase := rfl
@[simp] theorem State.setInput_acc (w : List Input) : (s.setInput w).acc = s.acc := rfl
@[simp] theorem State.setInput_cnt (w : List Input) : (s.setInput w).cnt = s.cnt := rfl
@[simp] theorem State.setInput_blk (w : List Input) : (s.setInput w).blk = s.blk := rfl
@[simp] theorem State.setInput_res (w : List Input) : (s.setInput w).res = s.res := rfl
@[simp] theorem State.setInput_input (w : List Input) : (s.setInput w).input = w := rfl
@[simp] theorem State.setInput_port (w : List Input) : (s.setInput w).port = s.port := rfl
@[simp] theorem State.setInput_responses (w : List Input) : (s.setInput w).responses = s.responses := rfl
@[simp] theorem State.setInput_values (w : List Input) : (s.setInput w).values = s.values := rfl

@[simp] theorem State.setPort_phase (bs : List Byte) : (s.setPort bs).phase = s.phase := rfl
@[simp] theorem State.setPort_acc (bs : List Byte) : (s.setPort bs).acc = s.acc := rfl
@[simp] theorem State.setPort_cnt (bs : List Byte) : (s.setPort bs).cnt = s.cnt := rfl
@[simp] theorem State.setPort_blk (bs : List Byte) : (s.setPort bs).blk = s.blk := rfl
@[simp] theorem State.setPort_res (bs : List Byte) : (s.setPort bs).res = s.res := rfl
@[simp] theorem State.setPort_input (bs : List Byte) : (s.setPort bs).input = s.input := rfl
@[simp] theorem State.setPort_port (bs : List Byte) : (s.setPort bs).port = bs := rfl
@[simp] theorem State.setPort_responses (bs : List Byte) : (s.setPort bs).responses = s.responses := rfl
@[simp] theorem State.setPort_values (bs : List Byte) : (s.setPort bs).values = s.values := rfl

@[simp] theorem State.respond_phase (r : Response) : (s.respond r).phase = s.phase := rfl
@[simp] theorem State.respond_acc (r : Response) : (s.respond r).acc = s.acc := rfl
@[simp] theorem State.respond_cnt (r : Response) : (s.respond r).cnt = s.cnt := rfl
@[simp] theorem State.respond_blk (r : Response) : (s.respond r).blk = s.blk := rfl
@[simp] theorem State.respond_res (r : Response) : (s.respond r).res = s.res := rfl
@[simp] theorem State.respond_input (r : Response) : (s.respond r).input = s.input := rfl
@[simp] theorem State.respond_port (r : Response) : (s.respond r).port = s.port := rfl
@[simp] theorem State.respond_responses (r : Response) : (s.respond r).responses = s.responses ++ [r] := rfl
@[simp] theorem State.respond_values (r : Response) : (s.respond r).values = s.values := rfl

@[simp] theorem State.emit_phase (b : Block) : (s.emit b).phase = s.phase := rfl
@[simp] theorem State.emit_acc (b : Block) : (s.emit b).acc = s.acc := rfl
@[simp] theorem State.emit_cnt (b : Block) : (s.emit b).cnt = s.cnt := rfl
@[simp] theorem State.emit_blk (b : Block) : (s.emit b).blk = s.blk := rfl
@[simp] theorem State.emit_res (b : Block) : (s.emit b).res = s.res := rfl
@[simp] theorem State.emit_input (b : Block) : (s.emit b).input = s.input := rfl
@[simp] theorem State.emit_port (b : Block) : (s.emit b).port = s.port := rfl
@[simp] theorem State.emit_responses (b : Block) : (s.emit b).responses = s.responses := rfl
@[simp] theorem State.emit_values (b : Block) : (s.emit b).values = s.values ++ [b] := rfl

@[simp] theorem enterAborted_phase : (enterAborted s).phase = .aborted := rfl
@[simp] theorem enterAborted_acc : (enterAborted s).acc = .undef := rfl
@[simp] theorem enterAborted_cnt : (enterAborted s).cnt = .undef := rfl
@[simp] theorem enterAborted_blk : (enterAborted s).blk = s.blk := rfl
@[simp] theorem enterAborted_res : (enterAborted s).res = s.res := rfl
@[simp] theorem enterAborted_input : (enterAborted s).input = s.input := rfl
@[simp] theorem enterAborted_port : (enterAborted s).port = s.port := rfl
@[simp] theorem enterAborted_responses : (enterAborted s).responses = s.responses := rfl
@[simp] theorem enterAborted_values : (enterAborted s).values = s.values := rfl

@[simp] theorem beginComputation_phase : (beginComputation s).phase = .accumulating := rfl
@[simp] theorem beginComputation_acc : (beginComputation s).acc = .val (Vector.replicate 160 0) := rfl
@[simp] theorem beginComputation_cnt : (beginComputation s).cnt = .val 0 := rfl
@[simp] theorem beginComputation_blk : (beginComputation s).blk = .undef := rfl
@[simp] theorem beginComputation_res : (beginComputation s).res = .undef := rfl
@[simp] theorem beginComputation_input : (beginComputation s).input = s.input := rfl
@[simp] theorem beginComputation_port : (beginComputation s).port = s.port := rfl
@[simp] theorem beginComputation_responses : (beginComputation s).responses = s.responses := rfl
@[simp] theorem beginComputation_values : (beginComputation s).values = s.values := rfl

@[simp] theorem hardReset_phase : (hardReset s).phase = .start := rfl
@[simp] theorem hardReset_acc : (hardReset s).acc = .undef := rfl
@[simp] theorem hardReset_cnt : (hardReset s).cnt = .undef := rfl
@[simp] theorem hardReset_blk : (hardReset s).blk = .undef := rfl
@[simp] theorem hardReset_res : (hardReset s).res = .undef := rfl
@[simp] theorem hardReset_input : (hardReset s).input = s.input := rfl
@[simp] theorem hardReset_port : (hardReset s).port = [] := rfl
@[simp] theorem hardReset_responses : (hardReset s).responses = s.responses := rfl
@[simp] theorem hardReset_values : (hardReset s).values = s.values := rfl

end Sys2Proof.Machine
end

