-- ==== Sys2Proof/Laws/Ops.lean ====
section
/-! SUPPORT. What each shared operation and each meaning can answer, said once: if it answers a next state, then one of the
cases named here holds. -/

namespace Sys2Proof.Machine

/-- The state in which a command was rejected: the response and nothing else (R237). -/
theorem reject_eq (e : ErrorCode) (s : State) : reject e s = .next (s.respond { status := .error e, payload := [] }) := rfl

theorem accept_eq (p : List Byte) (s : State) : accept p s = .next (s.respond { status := .ok, payload := p }) := rfl

theorem readReg_next {α : Type} {n : RegName} {r : Reg α} {k : α → Result} {t : State} :
    readReg n r k = .next t ↔ ∃ v, r = .val v ∧ k v = .next t := by
  cases r <;> simp [readReg]

theorem readReg_fault {α : Type} {n : RegName} {r : Reg α} {k : α → Result} {f : Fault} :
    readReg n r k = .fault f ↔ (r = .undef ∧ f = .undefRead n) ∨ ∃ v, r = .val v ∧ k v = .fault f := by
  cases r <;> simp [readReg, eq_comm]

@[simp] theorem readReg_val {α : Type} (n : RegName) (v : α) (k : α → Result) : readReg n (.val v) k = k v := rfl

@[simp] theorem readReg_undef {α : Type} (n : RegName) (k : α → Result) : readReg n .undef k = .fault (.undefRead n) := rfl

@[simp] theorem inPhase_true (s : State) (k : Result) : inPhase true s k = k := rfl

@[simp] theorem inPhase_false (s : State) (k : Result) : inPhase false s k = reject .ePhase s := rfl

theorem inPhase_next {ok : Bool} {s : State} {k : Result} {t : State} :
    inPhase ok s k = .next t ↔
      (ok = true ∧ k = .next t) ∨ (ok = false ∧ t = s.respond { status := .error .ePhase, payload := [] }) := by
  cases ok <;> simp [inPhase, reject, eq_comm]

theorem inStepPhase_next {p : Phase} {s : State} {k : Result} {t : State} :
    inStepPhase p s k = .next t ↔ s.phase = p ∧ k = .next t := by
  unfold inStepPhase; split <;> simp_all

theorem inStepPhase_of {p : Phase} {s : State} {k : Result} (h : s.phase = p) : inStepPhase p s k = k := if_pos h

theorem acceptsInit_iff (p : Phase) : acceptsInit p = true ↔ p = .start ∨ p = .done ∨ p = .aborted := by
  cases p <;> simp [acceptsInit]

theorem chunkOk_iff (n : Nat) (d : List Byte) : chunkOk n d = true ↔ n ≤ 160 ∧ d.length = n := by
  simp [chunkOk]

/-! ## What each meaning can answer -/

theorem execInit_cases {s t : State} (h : execInit s = .next t) :
    (acceptsInit s.phase = true ∧ t = (beginComputation s).respond { status := .ok, payload := [] }) ∨
      (acceptsInit s.phase = false ∧ t = s.respond { status := .error .ePhase, payload := [] }) := by
  obtain ⟨hp, h⟩ | ⟨hp, rfl⟩ := inPhase_next.1 h
  · exact .inl ⟨hp, (Host.Outcome.next.inj h).symm⟩
  · exact .inr ⟨hp, rfl⟩

/-- ABSORB under either value of `OVERFLOW`: turned away with the state as it was, or the chunk absorbed. -/
theorem absorbUnder_cases {m : Config.Overflow} {n : Nat} {d : List Byte} {s t : State} (h : absorbUnder m n d s = .next t) :
    (∃ e, t = s.respond { status := .error e, payload := [] }) ∨
      (chunkOk n d = true ∧ s.phase = .accumulating ∧ ∃ a c, s.acc = .val a ∧ s.cnt = .val c ∧
        t = (absorbChunk n d a c s).respond { status := .ok, payload := [] }) := by
  unfold absorbUnder at h
  split at h
  · next hc =>
    obtain ⟨hp, h⟩ | ⟨-, rfl⟩ := inPhase_next.1 h
    · obtain ⟨c, hcnt, h⟩ := readReg_next.1 h
      split at h
      · exact .inl ⟨_, by simpa [reject] using h.symm⟩
      · obtain ⟨a, hacc, h⟩ := readReg_next.1 h
        exact .inr ⟨hc, by simpa using hp, a, c, hacc, hcnt, by simpa [accept] using h.symm⟩
    · exact .inl ⟨_, rfl⟩
  · exact .inl ⟨_, by simpa [reject] using h.symm⟩

theorem execAbsorb_cases {n : Nat} {d : List Byte} {s t : State} (h : execAbsorb n d s = .next t) :
    (∃ e, t = s.respond { status := .error e, payload := [] }) ∨
      (chunkOk n d = true ∧ s.phase = .accumulating ∧ ∃ a c, s.acc = .val a ∧ s.cnt = .val c ∧
        t = (absorbChunk n d a c s).respond { status := .ok, payload := [] }) := absorbUnder_cases h

/-- ABSORB of a chunk that the counter can take, in `Accumulating`, is performed (R131). -/
theorem execAbsorb_accepted {n : Nat} {d : List Byte} {s : State} {a : AccBuffer} {c : Count}
    (hn : n ≤ 160) (hd : d.length = n) (hp : s.phase = .accumulating) (ha : s.acc = .val a) (hc : s.cnt = .val c)
    (hm : c.toNat + n ≤ 2 ^ 64 - 1) :
    execAbsorb n d s = .next ((absorbChunk n d a c s).respond { status := .ok, payload := [] }) := by
  have h : ¬ (overflowInForce = .fault ∧ Config.countMax < c.toNat + n) := fun h => absurd h.2 (by simp only [Config.countMax]; omega)
  simp [execAbsorb, absorbUnder, (chunkOk_iff n d).2 ⟨hn, hd⟩, hp, ha, hc, h, accept]

theorem execAbort_cases {s t : State} (h : execAbort s = .next t) :
    (s.phase = .accumulating ∧ t = (enterAborted s).respond { status := .ok, payload := [] }) ∨
      (s.phase ≠ .accumulating ∧ t = s.respond { status := .error .ePhase, payload := [] }) := by
  obtain ⟨hp, h⟩ | ⟨hp, rfl⟩ := inPhase_next.1 h
  · exact .inl ⟨by simpa using hp, (Host.Outcome.next.inj h).symm⟩
  · exact .inr ⟨by simpa using hp, rfl⟩

theorem execStatus_eq (s : State) : execStatus s = .next (s.respond { status := .ok, payload := [phaseCode s.phase] }) := rfl

theorem execRdigest_cases {s t : State} (h : execRdigest s = .next t) :
    (s.phase = .done ∧ ∃ d, s.res = .val d ∧ t = s.respond { status := .ok, payload := toBytes 20 d }) ∨
      (s.phase ≠ .done ∧ t = s.respond { status := .error .ePhase, payload := [] }) := by
  obtain ⟨hp, h⟩ | ⟨hp, rfl⟩ := inPhase_next.1 h
  · obtain ⟨d, hr, h⟩ := readReg_next.1 h
    exact .inl ⟨by simpa using hp, d, hr, by simpa [accept] using h.symm⟩
  · exact .inr ⟨by simpa using hp, rfl⟩

theorem execScatter_cases {s t : State} (h : execScatter s = .next t) :
    s.phase = .scattering ∧ ∃ a, s.acc = .val a ∧ t = (s.setBlk (.val (scatterBytes a))).setPhase .combining := by
  obtain ⟨hp, h⟩ := inStepPhase_next.1 h
  obtain ⟨a, ha, h⟩ := readReg_next.1 h
  exact ⟨hp, a, ha, by simpa using h.symm⟩

theorem execCombine_cases {s t : State} (h : execCombine s = .next t) :
    s.phase = .combining ∧ ∃ b, s.blk = .val b ∧ t = (s.setRes (.val (combineBlocks b))).setPhase .folding := by
  obtain ⟨hp, h⟩ := inStepPhase_next.1 h
  obtain ⟨b, hb, h⟩ := readReg_next.1 h
  exact ⟨hp, b, hb, by simpa using h.symm⟩

theorem foldUnder_cases {o : Config.LenOrder} {s t : State} (h : foldUnder o s = .next t) :
    s.phase = .folding ∧ ∃ r c, s.res = .val r ∧ s.cnt = .val c ∧
      t = ((s.setRes (.val (foldLength o r c))).setBlk .undef).setPhase .done := by
  obtain ⟨hp, h⟩ := inStepPhase_next.1 h
  obtain ⟨r, hr, h⟩ := readReg_next.1 h
  obtain ⟨c, hc, h⟩ := readReg_next.1 h
  exact ⟨hp, r, c, hr, hc, by simpa using h.symm⟩

theorem execFold_cases {s t : State} (h : execFold s = .next t) :
    s.phase = .folding ∧ ∃ r c, s.res = .val r ∧ s.cnt = .val c ∧
      t = ((s.setRes (.val (foldLength lenOrderInForce r c))).setBlk .undef).setPhase .done := foldUnder_cases h

theorem execRotl_cases {b : Block} {n : Nat} {s t : State} (h : execRotl b n s = .next t) :
    ∃ hn : n < 160, t = s.emit (rotl b ⟨n, hn⟩) := by
  unfold execRotl at h
  split at h
  · next hn => exact ⟨hn, by simpa using h.symm⟩
  · cases h

/-- A datapath function that answers a next state returns one Block and does nothing else. -/
theorem exec_datapath_cases {i : Instr} {s t : State} (hi : opClass i = .datapath) (h : exec i s = .next t) :
    ∃ b, t = s.emit b := by
  cases i <;> simp [opClass] at hi
  case rotl b n => obtain ⟨hn, rfl⟩ := execRotl_cases h; exact ⟨_, rfl⟩
  all_goals exact ⟨_, by simpa [exec, execZero, execXor, execBrev, execExt8, execExt64] using h.symm⟩

/-- Which meaning can fault, and on what: only a register that holds `undef` (U2). -/
theorem exec_fault_cases {i : Instr} {s : State} {f : Fault} (h : exec i s = .fault f) :
    (∃ n d, i = .absorb n d ∧ s.phase = .accumulating ∧ (s.cnt = .undef ∨ s.acc = .undef)) ∨
    (i = .rdigest ∧ s.phase = .done ∧ s.res = .undef) ∨ (i = .scatter ∧ s.phase = .scattering ∧ s.acc = .undef) ∨
    (i = .combine ∧ s.phase = .combining ∧ s.blk = .undef) ∨
    (i = .fold ∧ s.phase = .folding ∧ (s.res = .undef ∨ s.cnt = .undef)) := by
  cases i <;> simp only [exec] at h
  case init => unfold execInit inPhase accept reject at h; split at h <;> cases h
  case absorb n d =>
    unfold execAbsorb absorbUnder at h
    split at h
    · unfold inPhase at h
      split at h
      · next hp =>
        refine .inl ⟨n, d, rfl, by simpa using hp, ?_⟩
        obtain ⟨hc, -⟩ | ⟨c, -, h⟩ := readReg_fault.1 h
        · exact .inl hc
        · split at h
          · cases h
          · obtain ⟨ha, -⟩ | ⟨a, -, h⟩ := readReg_fault.1 h
            · exact .inr ha
            · cases h
      · cases h
    · cases h
  case abort => unfold execAbort inPhase accept reject at h; split at h <;> cases h
  case status => cases h
  case rdigest =>
    unfold execRdigest inPhase at h
    split at h
    · next hp =>
      obtain ⟨hr, -⟩ | ⟨d, -, h⟩ := readReg_fault.1 h
      · exact .inr (.inl ⟨rfl, by simpa using hp, hr⟩)
      · cases h
    · cases h
  case scatter =>
    unfold execScatter inStepPhase at h
    split at h
    · next hp =>
      obtain ⟨ha, -⟩ | ⟨a, -, h⟩ := readReg_fault.1 h
      · exact .inr (.inr (.inl ⟨rfl, hp, ha⟩))
      · cases h
    · cases h
  case combine =>
    unfold execCombine inStepPhase at h
    split at h
    · next hp =>
      obtain ⟨hb, -⟩ | ⟨b, -, h⟩ := readReg_fault.1 h
      · exact .inr (.inr (.inr (.inl ⟨rfl, hp, hb⟩)))
      · cases h
    · cases h
  case fold =>
    unfold execFold foldUnder inStepPhase at h
    split at h
    · next hp =>
      obtain ⟨hr, -⟩ | ⟨r, -, h⟩ := readReg_fault.1 h
      · exact .inr (.inr (.inr (.inr ⟨rfl, hp, .inl hr⟩)))
      · obtain ⟨hc, -⟩ | ⟨c, -, h⟩ := readReg_fault.1 h
        · exact .inr (.inr (.inr (.inr ⟨rfl, hp, .inr hc⟩)))
        · cases h
    · cases h
  case rotl b n => unfold execRotl at h; split at h <;> cases h
  all_goals cases h

/-- No meaning reads or writes the bytes at the port. -/
theorem exec_setPort {i : Instr} {s t : State} (p : List Byte) (h : exec i s = .next t) :
    exec i (s.setPort p) = .next (t.setPort p) := by
  unfold State.setPort
  obtain ⟨ph, acc, cnt, blk, res, inp, port, resp, vals⟩ := s
  cases i
  case absorb n d =>
    obtain h1 | h1 := Bool.eq_false_or_eq_true (chunkOk n d)
    · cases ph
      case accumulating =>
        cases cnt with
        | undef => simp [exec, execAbsorb, absorbUnder, h1] at h
        | val c =>
          by_cases h3 : Config.countMax < c.toNat + n
          · simp [exec, execAbsorb, absorbUnder, h1, h3, show overflowInForce = .fault from rfl, reject] at h ⊢; subst h; rfl
          · cases acc with
            | undef => simp [exec, execAbsorb, absorbUnder, h1, h3] at h
            | val a => simp [exec, execAbsorb, absorbUnder, h1, h3, accept] at h ⊢; subst h; rfl
      all_goals (simp [exec, execAbsorb, absorbUnder, h1, inPhase, reject] at h ⊢; subst h; rfl)
    · simp [exec, execAbsorb, absorbUnder, h1, reject] at h ⊢; subst h; rfl
  case init => cases ph <;> (simp [exec, execInit, acceptsInit, inPhase, reject, accept] at h ⊢; subst h; rfl)
  case abort => cases ph <;> (simp [exec, execAbort, inPhase, reject, accept] at h ⊢; subst h; rfl)
  case status => cases h; rfl
  case rdigest => cases ph <;> cases res <;> simp [exec, execRdigest, inPhase, reject, accept] at h ⊢ <;> (subst h; rfl)
  case scatter => cases ph <;> cases acc <;> simp [exec, execScatter, inStepPhase] at h ⊢ <;> (subst h; rfl)
  case combine => cases ph <;> cases blk <;> simp [exec, execCombine, inStepPhase] at h ⊢ <;> (subst h; rfl)
  case fold => cases ph <;> cases res <;> cases cnt <;> simp [exec, execFold, foldUnder, inStepPhase] at h ⊢ <;> (subst h; rfl)
  case rotl b n => obtain ⟨hn, rfl⟩ := execRotl_cases h; simp [exec, execRotl, hn]; rfl
  all_goals (cases h; rfl)

end Sys2Proof.Machine
end

