-- ==== Sys2Proof/Laws/PerInstr.lean ====
section
/-! SUPPORT. Statements made per operation: an operation's bytes begin with its own code of spec/30_encoding.md R82, and their
number is what R81 and R87 give for a host command and the model's trace form for the others (log 9). -/

namespace Sys2Proof.Laws.Encoding

/-- The number of bytes of an operation (R81, R87; log 9). -/
def byteCount : Instr → Nat
  | .absorb n _ => 2 + n
  | .xor _ _ => 41
  | .rotl _ _ => 22
  | .brev _ => 21
  | .ext8 _ => 2
  | .ext64 _ => 9
  | .init => 1
  | .abort => 1
  | .status => 1
  | .rdigest => 1
  | .scatter => 1
  | .combine => 1
  | .fold => 1
  | .zero => 1

/-- A well-formed operation's bytes begin with its code and are as many as its format says. -/
def Statement (i : Instr) : Prop :=
  i.wellFormed = true → (encode i).head? = some (opcode i) ∧ (encode i).length = byteCount i

theorem init : Statement .init := fun _ => ⟨rfl, rfl⟩

theorem absorb (n : Nat) (d : List Byte) : Statement (.absorb n d) := by
  intro h
  simp [Instr.wellFormed] at h
  simp [encode, operandBytes, byteCount]; omega

theorem abort : Statement .abort := fun _ => ⟨rfl, rfl⟩

theorem status : Statement .status := fun _ => ⟨rfl, rfl⟩

theorem rdigest : Statement .rdigest := fun _ => ⟨rfl, rfl⟩

theorem scatter : Statement .scatter := fun _ => ⟨rfl, rfl⟩

theorem combine : Statement .combine := fun _ => ⟨rfl, rfl⟩

theorem fold : Statement .fold := fun _ => ⟨rfl, rfl⟩

theorem zero : Statement .zero := fun _ => ⟨rfl, rfl⟩

theorem xor (a b : Block) : Statement (.xor a b) := fun _ => by simp [encode, operandBytes, byteCount]

theorem rotl (b : Block) (n : Nat) : Statement (.rotl b n) := fun _ => by simp [encode, operandBytes, byteCount]

theorem brev (b : Block) : Statement (.brev b) := fun _ => by simp [encode, operandBytes, byteCount]

theorem ext8 (b : Byte) : Statement (.ext8 b) := fun _ => by simp [encode, operandBytes, byteCount]

theorem ext64 (l : Count) : Statement (.ext64 l) := fun _ => by simp [encode, operandBytes, byteCount]

end Sys2Proof.Laws.Encoding
end

