-- ==== Sys2Proof/Laws/Run.lean ====
section
/-! SUPPORT. Operations performed one after another (spec/20_memory.md R61), and what `FEED s` does to an engine that is
accumulating (spec/41_accumulation.md R137). -/

namespace Sys2Proof.Machine

@[simp] theorem execAll_nil (s : State) : execAll [] s = .next s := rfl

theorem execAll_cons {i : Instr} {l : List Instr} {s t : State} (h : exec i s = .next t) :
    execAll (i :: l) s = execAll l t := by simp [execAll, h]

theorem execAll_append {l m : List Instr} {s t : State} (h : execAll l s = .next t) :
    execAll (l ++ m) s = execAll m t := by
  induction l generalizing s with
  | nil => cases h; rfl
  | cons i l ih =>
    simp only [List.cons_append, execAll] at h ⊢
    cases hi : exec i s with
    | next u => rw [hi] at h; exact ih h
    | fault f => rw [hi] at h; cases h
    | refused r => rw [hi] at h; cases h

/-- A stream shorter than a chunk is fed as its terminal chunk alone (R90). -/
theorem feed_short {s : List Byte} (h : s.length < 160) : feed s = [.absorb s.length s] := by
  have h0 : s.length / 160 = 0 := by omega
  have h1 : s.length % 160 = s.length := by omega
  simp [feed, h0, h1]

/-- A longer stream is fed as its first 160 bytes and then the rest (R90). -/
theorem feed_long {s : List Byte} (h : 160 ≤ s.length) : feed s = .absorb 160 (s.take 160) :: feed (s.drop 160) := by
  have hq : s.length / 160 = (s.drop 160).length / 160 + 1 := by rw [List.length_drop]; omega
  have hr : (s.drop 160).length % 160 = s.length % 160 := by rw [List.length_drop]; omega
  simp only [feed, hr]
  rw [hq, List.range_succ_eq_map]
  simp [List.drop_drop, Function.comp_def, Nat.mul_succ, Nat.add_comm]
  omega

theorem laneXor_nil (i : Nat) : laneXor [] i = 0 := rfl

theorem laneXor_eq_chunkByte {s : List Byte} (h : s.length ≤ 160) (i : Fin 160) : laneXor s i = chunkByte s i := by
  have hf : ((List.range s.length).filter fun t => t % 160 == i.val) =
      if i.val < s.length then [i.val] else [] := by
    have : ((List.range s.length).filter fun t => t % 160 == i.val) =
        (List.range s.length).filter fun t => t == i.val := by
      apply List.filter_congr
      intro t ht
      rw [Nat.mod_eq_of_lt (by have := List.mem_range.1 ht; omega)]
    rw [this]
    split
    · next hi => simp [List.filter_beq, List.count_eq_one_of_mem List.nodup_range (List.mem_range.2 hi)]
    · next hi => simp [List.filter_eq_nil_iff]; omega
  rw [laneXor, hf, chunkByte]
  split
  · simp
  · next hi => simp [List.getElem?_eq_none (Nat.le_of_not_lt hi)]

theorem laneXor_append_chunk {d s : List Byte} (h : d.length = 160) (i : Fin 160) :
    laneXor (d ++ s) i = laneXor d i ^^^ laneXor s i := by
  have fold_init : ∀ (l : List Nat) (f : Nat → Byte) (x : Byte),
      l.foldr (fun t x => f t ^^^ x) x = l.foldr (fun t x => f t ^^^ x) 0 ^^^ x := by
    intro l f x
    induction l with
    | nil => simp
    | cons t l ih => simp [ih, BitVec.xor_assoc]
  have h1 : ((List.range d.length).filter fun t => t % 160 == i.val).foldr (fun t x => ((d ++ s)[t]?).getD 0 ^^^ x) 0 =
      laneXor d i := by
    rw [laneXor]
    apply List.foldr_ext
    intro t ht x
    rw [List.getElem?_append_left (by have := List.mem_range.1 (List.mem_filter.1 ht).1; omega)]
  have h2 : (((List.range s.length).map (d.length + ·)).filter fun t => t % 160 == i.val).foldr
      (fun t x => ((d ++ s)[t]?).getD 0 ^^^ x) 0 = laneXor s i := by
    rw [List.filter_map, List.foldr_map, laneXor]
    have : ((fun t => t % 160 == i.val) ∘ (d.length + ·)) = fun t => t % 160 == i.val := by
      funext t; simp only [Function.comp_def, h, Nat.add_mod_left]
    rw [this]
    apply List.foldr_ext
    intro t _ x
    rw [List.getElem?_append_right (by omega), Nat.add_sub_cancel_left]
  rw [laneXor, List.length_append, List.range_add, List.filter_append, List.foldr_append, fold_init, h1, h2]

/-- `FEED s` on an engine that is accumulating: every chunk is accepted; the accumulator has each lane's bytes XORed in, and
its closed form is that of the bytes absorbed; the counter has grown by the length; Accumulation has ended. -/
theorem execAll_feed (s : List Byte) (st : State) (a : AccBuffer) (c : Count)
    (hp : st.phase = .accumulating) (ha : st.acc = .val a) (hc : st.cnt = .val c) (hm : c.toNat + s.length ≤ 2 ^ 64 - 1) :
    ∃ a' : AccBuffer, execAll (feed s) st =
        .next { st with
          acc := .val a', cnt := .val (c + BitVec.ofNat 64 s.length), phase := .scattering,
          responses := st.responses ++ List.replicate (s.length / 160 + 1) { status := .ok, payload := [] } } ∧
      preAcc a' = xorBlock (preAcc a) (pre s) ∧ ∀ i : Fin 160, a'[i] = a[i] ^^^ laneXor s i := by
  induction hn : s.length using Nat.strongRecOn generalizing s st a c with
  | ind n ih =>
    subst hn
    by_cases h : s.length < 160
    · refine ⟨absorbBytes a s, ?_, preAcc_absorbBytes a s (by omega), fun i => ?_⟩
      · have he : exec (.absorb s.length s) st = _ := execAbsorb_accepted (by omega : s.length ≤ 160) rfl hp ha hc hm
        rw [feed_short h, execAll_cons he, execAll_nil]
        simp [absorbChunk, State.setPhase, State.setCnt, State.setAcc, State.respond, h, Nat.div_eq_of_lt h]
      · rw [absorbBytes_get, laneXor_eq_chunkByte (by omega)]
    · have hl : (s.take 160).length = 160 := by rw [List.length_take]; omega
      have hd : (s.drop 160).length = s.length - 160 := List.length_drop
      have hb : c.toNat + 160 ≤ 2 ^ 64 - 1 := by omega
      have hb' : (c + BitVec.ofNat 64 160).toNat = c.toNat + 160 := by
        rw [BitVec.toNat_add, BitVec.toNat_ofNat]; omega
      have he : exec (.absorb 160 (s.take 160)) st = _ := execAbsorb_accepted (by omega : (160 : Nat) ≤ 160) hl hp ha hc hb
      obtain ⟨a', hr, hpre, hlane⟩ := ih (s.drop 160).length (by omega) (s.drop 160)
        ((absorbChunk 160 (s.take 160) a c st).respond { status := .ok, payload := [] })
        (absorbBytes a (s.take 160)) (c + BitVec.ofNat 64 160) rfl rfl rfl (by omega) rfl
      refine ⟨a', ?_, ?_, fun i => ?_⟩
      · rw [feed_long (by omega), execAll_cons he, hr]
        have hcount : c + 160#64 + BitVec.ofNat 64 (s.length - 160) = c + BitVec.ofNat 64 s.length := by
          rw [BitVec.add_assoc, ← BitVec.ofNat_add, show 160 + (s.length - 160) = s.length by omega]
        have hq : s.length / 160 + 1 = (s.length - 160) / 160 + 1 + 1 := by omega
        simp [absorbChunk, State.setPhase, State.setCnt, State.setAcc, State.respond, hcount, hq, List.replicate_succ]
      · rw [hpre, preAcc_absorbBytes _ _ (by omega), xorBlock_assoc]
        conv_rhs => rw [← List.take_append_drop 160 s, pre_append_chunk _ _ hl]
      · rw [hlane, absorbBytes_get, ← laneXor_eq_chunkByte (by omega), BitVec.xor_assoc, ← laneXor_append_chunk hl,
          List.take_append_drop]

end Sys2Proof.Machine
end

