-- ==== Sys2Proof/Laws/Step.lean ====
section
/-! SUPPORT. What one step can do, said once: either an operation is performed on the state less the event or the bytes that
called for it, or one of the settled outcomes of `Machine/Sequence.lean`. -/

namespace Sys2Proof.Machine

/-- Only what the outside world still does, and the bytes at the port, differ. -/
def sameButInterface (s u : State) : Prop := u = { s with input := u.input, port := u.port }

theorem sameButInterface.fields {s u : State} (h : sameButInterface s u) :
    u.phase = s.phase ∧ u.acc = s.acc ∧ u.cnt = s.cnt ∧ u.blk = s.blk ∧ u.res = s.res ∧ u.responses = s.responses ∧
      u.values = s.values := by
  rw [h]; exact ⟨rfl, rfl, rfl, rfl, rfl, rfl, rfl⟩

theorem sameButInterface_refl (s : State) : sameButInterface s s := rfl

theorem sameButInterface_setPort (s : State) (bs : List Byte) : sameButInterface s (s.setPort bs) := rfl

theorem sameButInterface_setInput (s : State) (w : List Input) : sameButInterface s (s.setInput w) := rfl

theorem sameButInterface_arrival (s : State) (w : List Input) (bs : List Byte) :
    sameButInterface s ((s.setInput w).setPort bs) := rfl

/-- What calls for an operation: its bytes at the port, a transaction, the engine's own turn, an evaluation. -/
inductive Called (s : State) (i : Instr) : Prop where
  | port (rest : List Byte) (h : decodePort s.port = .command i rest)
  | command (rest : List Input) (hp : decodePort s.port = .incomplete) (h : s.input = .command i :: rest)
      (hc : opClass i = .hostCommand)
  | engine (hp : decodePort s.port = .incomplete) (h : engineStepOf s.phase = some i)
  | evaluate (rest : List Input) (hp : decodePort s.port = .incomplete) (h : s.input = .evaluate i :: rest)
      (hc : opClass i = .datapath)

theorem engineTurn_run {s u : State} {i : Instr} (h : engineTurn s = .run i u) : engineStepOf s.phase = some i ∧ u = s := by
  unfold engineTurn at h
  split at h
  · next hi => cases h; exact ⟨hi, rfl⟩
  · cases h

theorem engineTurn_settled {s : State} {r : Result} (h : engineTurn s = .settled r) :
    engineStepOf s.phase = none ∧ r = .next s := by
  unfold engineTurn at h
  split at h
  · cases h
  · next hi => cases h; exact ⟨hi, rfl⟩

theorem nextTurn_run {s u : State} {i : Instr} (h : nextTurn s = .run i u) : Called s i ∧ sameButInterface s u := by
  unfold nextTurn at h
  split at h
  · next j rest hd => cases h; exact ⟨.port rest hd, rfl⟩
  · cases h
  · next hp =>
    unfold inputTurn at h
    split at h
    · obtain ⟨hi, rfl⟩ := engineTurn_run h; exact ⟨.engine hp hi, rfl⟩
    · cases h
    · next j rest hin =>
      unfold commandTurn at h
      split at h
      · next hc => cases h; exact ⟨.command rest hp hin hc, rfl⟩
      · cases h
      · cases h
    · next rest hin => obtain ⟨hi, rfl⟩ := engineTurn_run h; exact ⟨.engine hp hi, rfl⟩
    · next j rest hin =>
      unfold evaluateTurn at h
      split at h
      · next hc => cases h; exact ⟨.evaluate rest hp hin hc, rfl⟩
      · cases h
      · cases h
    · cases h

/-- A settled outcome: a rejection at decode, a reset, or nothing but an event passing. -/
theorem nextTurn_settled {s : State} {r : Result} (h : nextTurn s = .settled r) :
    (∃ e u, sameButInterface s u ∧ r = reject e u) ∨
    (∃ rest, decodePort s.port = .incomplete ∧ s.input = .reset :: rest ∧ r = .next (hardReset (s.setInput rest))) ∨
    (∃ u, sameButInterface s u ∧ r = .next u) := by
  unfold nextTurn at h
  split at h
  · cases h
  · cases h; exact .inl ⟨_, _, sameButInterface_setPort s _, rfl⟩
  · next hp =>
    unfold inputTurn at h
    split at h
    · obtain ⟨-, rfl⟩ := engineTurn_settled h; exact .inr (.inr ⟨s, rfl, rfl⟩)
    · cases h; exact .inr (.inr ⟨_, sameButInterface_arrival s _ _, rfl⟩)
    · unfold commandTurn at h
      split at h
      · cases h
      · cases h; exact .inl ⟨_, _, sameButInterface_setInput s _, rfl⟩
      · cases h; exact .inl ⟨_, _, sameButInterface_setInput s _, rfl⟩
    · obtain ⟨-, rfl⟩ := engineTurn_settled h; exact .inr (.inr ⟨_, sameButInterface_setInput s _, rfl⟩)
    · unfold evaluateTurn at h
      split at h
      · cases h
      · cases h; exact .inr (.inr ⟨_, sameButInterface_setInput s _, rfl⟩)
      · cases h; exact .inr (.inr ⟨_, sameButInterface_setInput s _, rfl⟩)
    · next rest hin => cases h; exact .inr (.inl ⟨rest, hp, hin, rfl⟩)

/-- What a step that answers a next state did. -/
theorem step_cases {s t : State} (h : step s = .next t) :
    (∃ i u, nextTurn s = .run i u ∧ Called s i ∧ sameButInterface s u ∧ exec i u = .next t) ∨
    (∃ e u, sameButInterface s u ∧ t = u.respond { status := .error e, payload := [] }) ∨
    (∃ rest, decodePort s.port = .incomplete ∧ s.input = .reset :: rest ∧ t = hardReset (s.setInput rest)) ∨
    sameButInterface s t := by
  unfold step at h
  split at h
  · next i u hn =>
    obtain ⟨hc, hs⟩ := nextTurn_run hn
    exact .inl ⟨i, u, hn, hc, hs, h⟩
  · next r hn =>
    obtain ⟨e, u, hs, rfl⟩ | ⟨rest, hp, hin, rfl⟩ | ⟨u, hs, rfl⟩ := nextTurn_settled hn
    · exact .inr (.inl ⟨e, u, hs, (Host.Outcome.next.inj h).symm⟩)
    · exact .inr (.inr (.inl ⟨rest, hp, hin, (Host.Outcome.next.inj h).symm⟩))
    · cases h; exact .inr (.inr (.inr hs))

/-- A step faults only in performing an operation. -/
theorem step_fault_cases {s : State} {f : Fault} (h : step s = .fault f) :
    ∃ i u, Called s i ∧ sameButInterface s u ∧ exec i u = .fault f := by
  unfold step at h
  split at h
  · next i u hn =>
    obtain ⟨hc, hs⟩ := nextTurn_run hn
    exact ⟨i, u, hc, hs, h⟩
  · next r hn =>
    obtain ⟨e, u, hs, rfl⟩ | ⟨rest, hp, hin, rfl⟩ | ⟨u, hs, rfl⟩ := nextTurn_settled hn <;> cases h

/-- With no byte at the port and no event to come, a busy engine takes its step (R270). -/
theorem step_undisturbed {s : State} {i : Instr} (h : s.undisturbed) (hi : engineStepOf s.phase = some i) : step s = exec i s := by
  simp [step, nextTurn, h.1, decodePort, inputTurn, h.2, engineTurn, hi]

/-- A run is its first step's next state, run on. -/
theorem core_run_succ (k : Nat) {s t : State} (h : step s = .next t) :
    Host.Core.run Sys2Proof.core (k + 1) s = Host.Core.run Sys2Proof.core k t := by
  have e : Sys2Proof.core.step s = .next t := h
  simp only [Host.Core.run, e]

end Sys2Proof.Machine
end

