-- ==== Sys2Proof/Tests/Slice0.lean ====
section
/-! SUPPORT. The model's own tests. Expected values are those of spec/95_test_vectors.md (V1 to V58) or written out by hand
from the rule a test names; then one witness for the hypotheses of each statement of
Sys2Proof/Certificates/Slice0/Obligations.lean that has any. -/

namespace Sys2Proof.Tests.Slice0

open Sys2Proof Sys2Proof.Machine

set_option maxRecDepth 100000

/-! ## Small states -/

/-- `ACC[i] = i` (V32, V48). -/
def indexAcc : AccBuffer := Vector.ofFn fun i => BitVec.ofNat 8 i.val

/-- `B0` of spec/95_test_vectors.md: the bytes 01, 02, .., 14 from index 0. -/
def block0 : Block := ofBytes 160 [0x01, 0x02, 0x03, 0x04, 0x05, 0x06, 0x07, 0x08, 0x09, 0x0a, 0x0b, 0x0c, 0x0d, 0x0e, 0x0f, 0x10, 0x11, 0x12, 0x13, 0x14]

/-- The block set of V32. -/
def blocksV32 : BlockSet :=
  #v[ofBytes 160 [0x00, 0x58, 0x10, 0x68, 0x20, 0x78, 0x30, 0x88, 0x40, 0x98, 0x50, 0x08, 0x60, 0x18, 0x70, 0x28, 0x80, 0x38, 0x90, 0x48],
    ofBytes 160 [0x83, 0x3b, 0x93, 0x4b, 0x03, 0x5b, 0x13, 0x6b, 0x23, 0x7b, 0x33, 0x8b, 0x43, 0x9b, 0x53, 0x0b, 0x63, 0x1b, 0x73, 0x2b],
    ofBytes 160 [0x66, 0x1e, 0x76, 0x2e, 0x86, 0x3e, 0x96, 0x4e, 0x06, 0x5e, 0x16, 0x6e, 0x26, 0x7e, 0x36, 0x8e, 0x46, 0x9e, 0x56, 0x0e],
    ofBytes 160 [0x49, 0x01, 0x59, 0x11, 0x69, 0x21, 0x79, 0x31, 0x89, 0x41, 0x99, 0x51, 0x09, 0x61, 0x19, 0x71, 0x29, 0x81, 0x39, 0x91],
    ofBytes 160 [0x2c, 0x84, 0x3c, 0x94, 0x4c, 0x04, 0x5c, 0x14, 0x6c, 0x24, 0x7c, 0x34, 0x8c, 0x44, 0x9c, 0x54, 0x0c, 0x64, 0x1c, 0x74],
    ofBytes 160 [0x0f, 0x67, 0x1f, 0x77, 0x2f, 0x87, 0x3f, 0x97, 0x4f, 0x07, 0x5f, 0x17, 0x6f, 0x27, 0x7f, 0x37, 0x8f, 0x47, 0x9f, 0x57],
    ofBytes 160 [0x92, 0x4a, 0x02, 0x5a, 0x12, 0x6a, 0x22, 0x7a, 0x32, 0x8a, 0x42, 0x9a, 0x52, 0x0a, 0x62, 0x1a, 0x72, 0x2a, 0x82, 0x3a],
    ofBytes 160 [0x75, 0x2d, 0x85, 0x3d, 0x95, 0x4d, 0x05, 0x5d, 0x15, 0x6d, 0x25, 0x7d, 0x35, 0x8d, 0x45, 0x9d, 0x55, 0x0d, 0x65, 0x1d]]

/-- A state in phase `p` whose registers are as R31 says. -/
def liveState (p : Phase) : State :=
  match p with
  | .start => State.reset
  | .aborted => { State.reset with phase := .aborted }
  | .accumulating => { State.reset with phase := .accumulating, acc := .val indexAcc, cnt := .val 160 }
  | .scattering => { State.reset with phase := .scattering, acc := .val indexAcc, cnt := .val 160 }
  | .combining => { State.reset with phase := .combining, acc := .val indexAcc, cnt := .val 160, blk := .val blocksV32 }
  | .folding =>
    { State.reset with
      phase := .folding, acc := .val indexAcc, cnt := .val 0x0102030405060708, blk := .val blocksV32, res := .val block0 }
  | .done => { State.reset with phase := .done, acc := .val indexAcc, cnt := .val 160, res := .val block0 }

/-- The same with another counter. -/
def withCount (c : Count) (s : State) : State := { s with cnt := .val c }

/-- What a next state must satisfy; false of a fault or a refusal. -/
def onNext (r : Result) (p : State → Bool) : Bool :=
  match r with
  | .next t => p t
  | .fault _ => false
  | .refused _ => false

/-- The last response sent. -/
def lastResponse (s : State) : Option Response := s.responses.getLast?

/-! ## Well-formed operations: ill-formed terms are refused -/

theorem test_wf_absorb_too_long : (Instr.absorb 161 (List.replicate 161 0)).wellFormed = false := by decide

theorem test_wf_absorb_wrong_number : (Instr.absorb 3 [0x61, 0x62]).wellFormed = false := by decide

theorem test_wf_rotl_count : (Instr.rotl 1 160).wellFormed = false := by decide

theorem test_wf_limits : (Instr.absorb 160 (List.replicate 160 0)).wellFormed = true ∧ (Instr.absorb 0 []).wellFormed = true ∧
    (Instr.rotl 1 159).wellFormed = true := by decide

/-! ## Decoding: words written out from R81, R82 -/

theorem test_decode_host_commands :
    decodePort [0x01] = .command .init [] ∧ decodePort [0x02, 0x03, 0x61, 0x62, 0x63] = .command (.absorb 3 [0x61, 0x62, 0x63]) [] ∧
    decodePort [0x02, 0x00] = .command (.absorb 0 []) [] ∧ decodePort [0x03] = .command .abort [] ∧
    decodePort [0x04] = .command .status [] ∧ decodePort [0x05] = .command .rdigest [] := by decide

theorem test_decode_engine_steps :
    decodeTrace [0x10] = some (.scatter, []) ∧ decodeTrace [0x11] = some (.combine, []) ∧ decodeTrace [0x12] = some (.fold, []) := by
  decide

theorem test_decode_datapath :
    decodeTrace [0x20] = some (.zero, []) ∧
    decodeTrace (0x21 :: (toBytes 20 block0 ++ 0x07 :: List.replicate 19 0)) = some (.xor block0 7, []) ∧
    decodeTrace (0x22 :: (0x80 :: List.replicate 19 0 ++ [0x9f])) = some (.rotl 0x80 159, []) ∧
    decodeTrace (0x23 :: (List.replicate 19 0 ++ [0x01])) = some (.brev (1 <<< 152), []) ∧
    decodeTrace [0x24, 0xa5] = some (.ext8 0xa5, []) ∧
    decodeTrace [0x25, 0x08, 0x07, 0x06, 0x05, 0x04, 0x03, 0x02, 0x01] = some (.ext64 0x0102030405060708, []) := by decide

/-- Codes of no host command, and a length above 160, are rejected (R86); a command not yet whole waits (R92). -/
theorem test_decode_rejects :
    decodePort [0x00] = .rejected .eOpcode [] ∧ decodePort [0x06, 0x01] = .rejected .eOpcode [0x01] ∧
    decodePort [0x10] = .rejected .eOpcode [] ∧ decodePort [0x25] = .rejected .eOpcode [] ∧
    decodePort [0xff] = .rejected .eOpcode [] ∧ decodePort [0x02, 0xa1] = .rejected .eLength [] ∧
    decodePort [] = .incomplete ∧ decodePort [0x02] = .incomplete ∧ decodePort [0x02, 0x03, 0x61, 0x62] = .incomplete := by decide

theorem test_decode_table_rows :
    decodeTableWord 8 0x01 = some .init ∧ decodeTableWord 16 0x0002 = some (.absorb 0 []) ∧
    decodeTableWord 16 0x0302 = some (.absorb 3 [0, 0, 0]) ∧ decodeTableWord 8 0x12 = some .fold ∧
    decodeTableWord 8 0x25 = some (.ext64 0) ∧ decodeTableWord 8 0x13 = none := by decide

/-! ## One step of each operation -/

/-- V45. -/
theorem test_init : onNext (exec .init State.reset) (fun t =>
    t.phase == .accumulating && t.acc == .val (Vector.replicate 160 0) && t.cnt == .val 0 && t.blk == .undef && t.res == .undef) = true := by
  decide

/-- R130: not accepted while accumulating. -/
theorem test_init_rejected : onNext (exec .init (liveState .accumulating)) (fun t =>
    t.acc == .val indexAcc && lastResponse t == some (errorResponse .ePhase)) = true := by decide

/-- V50: the second chunk folds onto offset 0. -/
theorem test_absorb_second_chunk : onNext (exec (.absorb 1 [0xa5]) (liveState .accumulating)) (fun t =>
    t.acc == .val (indexAcc.set 0 0xa5) && t.cnt == .val 161 && t.phase == .scattering) = true := by decide

/-- The counter limit of section 2.5: 160 more than `2^64 - 160` bytes are rejected. -/
theorem test_absorb_overflow :
    onNext (exec (.absorb 160 (List.replicate 160 0)) (withCount 0xffffffffffffff60 (liveState .accumulating))) (fun t =>
      t.cnt == .val 0xffffffffffffff60 && t.phase == .accumulating && lastResponse t == some (errorResponse .eOverflow)) = true := by
  decide

/-- R231. -/
theorem test_abort : onNext (exec .abort (liveState .accumulating)) (fun t =>
    t.phase == .aborted && t.acc == .undef && t.cnt == .undef) = true := by decide

theorem test_abort_rejected : onNext (exec .abort (liveState .scattering)) (fun t =>
    t.phase == .scattering && lastResponse t == some (errorResponse .ePhase)) = true := by decide

/-- R85. -/
theorem test_status : onNext (exec .status (liveState .folding)) (fun t => lastResponse t == some (okResponse [4])) = true := by
  decide

/-- R194 on `B0`: `b0 = 01` is sent first. -/
theorem test_rdigest : onNext (exec .rdigest (liveState .done)) (fun t =>
    lastResponse t == some (okResponse [0x01, 0x02, 0x03, 0x04, 0x05, 0x06, 0x07, 0x08, 0x09, 0x0a, 0x0b, 0x0c, 0x0d, 0x0e, 0x0f, 0x10, 0x11, 0x12, 0x13, 0x14])) = true := by decide

/-- V32. -/
theorem test_scatter : onNext (exec .scatter (liveState .scattering)) (fun t =>
    t.blk == .val blocksV32 && t.acc == .val indexAcc && t.phase == .combining) = true := by decide

/-- V38. -/
theorem test_combine : onNext (exec .combine (liveState .combining)) (fun t => t.phase == .folding &&
    t.res == .val (ofBytes 160 [0xff, 0xe1, 0x06, 0x2e, 0x59, 0xd0, 0x8b, 0x47, 0x55, 0xb3, 0x93, 0x84, 0x0d, 0x75, 0xa1, 0x12, 0x7c, 0xf9, 0xc2, 0x0e])) = true := by
  decide

/-- V43, the digest under `value`. -/
theorem test_fold : onNext (exec .fold (liveState .folding)) (fun t => t.phase == .done && t.blk == .undef &&
    t.res == .val (ofBytes 160 [0x1c, 0x14, 0x14, 0x14, 0x14, 0x0c, 0x0c, 0x0c, 0x0c, 0x0b, 0x0a, 0x09, 0x08, 0x07, 0x06, 0x05, 0x04, 0x03, 0x02, 0x01])) = true := by
  decide

/-- V43, the digest under `swapped`. -/
theorem test_fold_swapped : onNext (foldUnder .swapped (liveState .folding)) (fun t =>
    t.res == .val (ofBytes 160 [0x15, 0x11, 0x11, 0x15, 0x15, 0x09, 0x09, 0x05, 0x0c, 0x0b, 0x0a, 0x09, 0x08, 0x07, 0x06, 0x05, 0x04, 0x03, 0x02, 0x01])) = true := by
  decide

/-- V1. -/
theorem test_zero : onNext (exec .zero State.reset) (fun t => t.values == [ofBytes 160 (List.replicate 20 0)]) = true := by decide

/-- V3: XOR of `B0` and its reversal, given by V14's bytes. -/
theorem test_xor : onNext (exec (.xor block0 (ofBytes 160 [0x14, 0x13, 0x12, 0x11, 0x10, 0x0f, 0x0e, 0x0d, 0x0c, 0x0b, 0x0a, 0x09, 0x08, 0x07, 0x06, 0x05, 0x04, 0x03, 0x02, 0x01])) State.reset)
    (fun t => t.values == [ofBytes 160 [0x15, 0x11, 0x11, 0x15, 0x15, 0x09, 0x09, 0x05, 0x05, 0x01, 0x01, 0x05, 0x05, 0x09, 0x09, 0x15, 0x15, 0x11, 0x11, 0x15]]) = true := by
  decide

/-- V6. -/
theorem test_rotl : onNext (exec (.rotl block0 7) State.reset) (fun t =>
    t.values == [ofBytes 160 [0x8a, 0x00, 0x81, 0x01, 0x82, 0x02, 0x83, 0x03, 0x84, 0x04, 0x85, 0x05, 0x86, 0x06, 0x87, 0x07, 0x88, 0x08, 0x89, 0x09]]) = true := by decide

/-- V10, the largest count. -/
theorem test_rotl_159 : onNext (exec (.rotl block0 159) State.reset) (fun t =>
    t.values == [ofBytes 160 [0x00, 0x81, 0x01, 0x82, 0x02, 0x83, 0x03, 0x84, 0x04, 0x85, 0x05, 0x86, 0x06, 0x87, 0x07, 0x88, 0x08, 0x89, 0x09, 0x8a]]) = true := by decide

/-- V14. -/
theorem test_brev : onNext (exec (.brev block0) State.reset) (fun t =>
    t.values == [ofBytes 160 [0x14, 0x13, 0x12, 0x11, 0x10, 0x0f, 0x0e, 0x0d, 0x0c, 0x0b, 0x0a, 0x09, 0x08, 0x07, 0x06, 0x05, 0x04, 0x03, 0x02, 0x01]]) = true := by decide

/-- V16. -/
theorem test_ext8 : onNext (exec (.ext8 0xa5) State.reset) (fun t =>
    t.values == [ofBytes 160 (0xa5 :: List.replicate 19 0)]) = true := by decide

/-- V17. -/
theorem test_ext64 : onNext (exec (.ext64 0x0102030405060708) State.reset) (fun t =>
    t.values == [ofBytes 160 ([0x08, 0x07, 0x06, 0x05, 0x04, 0x03, 0x02, 0x01] ++ List.replicate 12 0)]) = true := by decide

/-- V18. -/
theorem test_ext64_swapped : ext64 .swapped 0x0102030405060708 =
    ofBytes 160 ([0x01, 0x02, 0x03, 0x04, 0x05, 0x06, 0x07, 0x08] ++ List.replicate 12 0) := by decide

/-! ## The scatter map and the digest -/

/-- V21 to V31. -/
theorem test_sigma : sigma 0 = (0, 0) ∧ sigma 1 = (3, 1) ∧ sigma 14 = (2, 19) ∧ sigma 15 = (5, 0) ∧ sigma 16 = (0, 2) ∧
    sigma 29 = (7, 19) ∧ sigma 116 = (4, 19) ∧ sigma 117 = (7, 0) ∧ sigma 131 = (1, 0) ∧ sigma 145 = (3, 19) ∧
    sigma 159 = (5, 18) := by decide

/-- V57, `abc`. -/
theorem test_digest_abc : qxh .value [0x61, 0x62, 0x63] =
    ofBytes 160 [0x03, 0x00, 0x00, 0x00, 0x00, 0x00, 0x00, 0x00, 0x00, 0x00, 0x00, 0x00, 0x00, 0x00, 0x00, 0x00, 0x18, 0xc3, 0x10, 0x61] := by decide

/-- V58, `hello world`, under `swapped`. -/
theorem test_digest_hello_swapped : qxh .swapped [0x68, 0x65, 0x6c, 0x6c, 0x6f, 0x20, 0x77, 0x6f, 0x72, 0x6c, 0x64] =
    ofBytes 160 [0x00, 0x00, 0x00, 0x00, 0x00, 0x19, 0x03, 0x6b, 0x72, 0x0d, 0xe1, 0xdc, 0x10, 0x06, 0xf0, 0xd8, 0x1b, 0x03, 0x28, 0x68] := by decide

/-- V57, as rendered. -/
theorem test_render_abc : String.ofList (render (ofBytes 160 [0x03, 0x00, 0x00, 0x00, 0x00, 0x00, 0x00, 0x00, 0x00, 0x00, 0x00, 0x00, 0x00, 0x00, 0x00, 0x00, 0x18, 0xc3, 0x10, 0x61])) =
    "6110c31800000000000000000000000000000003" := by decide

/-- The chunks `FEED` gives for 0, 159, 160 and 161 bytes (R90). -/
theorem test_feed_chunks : feed [] = [.absorb 0 []] ∧ (feed (List.replicate 159 0)).length = 1 ∧
    feed (List.replicate 160 7) = [.absorb 160 (List.replicate 160 7), .absorb 0 []] ∧
    feed (List.replicate 161 7) = [.absorb 160 (List.replicate 160 7), .absorb 1 [7]] := by decide

/-! ## Steps -/

/-- A table word placed after reset is run by the next step. -/
theorem test_step_init : onNext (step (State.reset.withFetchWord 8 0x01)) (fun t =>
    t.phase == .accumulating && t.port == []) = true := by decide

/-! ## Witnesses: each statement's hypotheses are met, clause by clause -/

/-- Every phase has a state whose registers are as R31 says. -/
theorem witness_live (p : Phase) : (liveState p).live ∧ (liveState p).phase = p := by cases p <;> exact ⟨rfl, rfl⟩

theorem witness_InitBeginsComputation :
    (liveState .start).phase = .start ∧ (liveState .done).phase = .done ∧ (liveState .aborted).phase = .aborted ∧
    (liveState .accumulating).phase = .accumulating ∧ (liveState .scattering).phase = .scattering ∧
    (liveState .combining).phase = .combining ∧ (liveState .folding).phase = .folding := by decide

/-- One witness per clause: 161 bytes; 3 announced and 2 there; a full chunk in `Start`; one more than the counter takes; as
many as it takes (159 at `2^64 - 160`), none at its greatest value, and a full chunk. -/
theorem witness_AbsorbFoldsChunk :
    160 < 161 ∧ ([0x61, 0x62] : List Byte).length ≠ 3 ∧
    (160 ≤ 160 ∧ (List.replicate 160 (0 : Byte)).length = 160 ∧ (liveState .start).phase ≠ .accumulating) ∧
    (2 ^ 64 - 1 < (0xffffffffffffff60 : Count).toNat + 160 ∧ (List.replicate 160 (0 : Byte)).length = 160) ∧
    ((0xffffffffffffff60 : Count).toNat + 159 ≤ 2 ^ 64 - 1 ∧ (List.replicate 159 (0 : Byte)).length = 159) ∧
    (0xffffffffffffffff : Count).toNat + 0 ≤ 2 ^ 64 - 1 ∧ (160 : Count).toNat + 160 ≤ 2 ^ 64 - 1 ∧
    (withCount 0xffffffffffffff60 (liveState .accumulating)).cnt = .val 0xffffffffffffff60 ∧
    (liveState .accumulating).phase = .accumulating ∧ (liveState .accumulating).acc = .val indexAcc ∧
    (liveState .accumulating).cnt = .val 160 := by decide

/-- Both clauses: a chunk past the counter's end, and one within. -/
theorem witness_AbsorbUnderEitherOverflow :
    (liveState .accumulating).phase = .accumulating ∧ (liveState .accumulating).acc = .val indexAcc ∧
    (withCount 0xffffffffffffff60 (liveState .accumulating)).cnt = .val 0xffffffffffffff60 ∧
    (List.replicate 160 (0 : Byte)).length = 160 ∧ 2 ^ 64 - 1 < (0xffffffffffffff60 : Count).toNat + 160 := by decide

theorem witness_AbortEntersAborted :
    (liveState .accumulating).phase = .accumulating ∧ (liveState .done).phase ≠ .accumulating := by decide

theorem witness_RdigestReturnsDigest :
    (liveState .done).phase = .done ∧ (liveState .done).res = .val block0 ∧ (liveState .folding).phase ≠ .done := by decide

/-- The first index whose unreduced byte offset is 20 (V24). -/
theorem witness_ScatterFillsEverySlot :
    (liveState .scattering).phase = .scattering ∧ (liveState .scattering).acc = .val indexAcc ∧
    ((5 : Fin 8).val = (((15 : Fin 160).val * 11) % 1280) % 8 ∧ (0 : Fin 20).val = ((((15 : Fin 160).val * 11) % 1280) / 8) % 20) ∧
    ((5 : Fin 8).val = (((159 : Fin 160).val * 11) % 1280) % 8 ∧ (18 : Fin 20).val = ((((159 : Fin 160).val * 11) % 1280) / 8) % 20) := by
  decide

/-- The far corner: slot `(7, 19)` holds index 29 (R155). -/
theorem witness_ScatterSlotHoldsInverseIndex :
    (liveState .scattering).phase = .scattering ∧ (liveState .scattering).acc = .val indexAcc ∧
    (29 : Fin 160).val = ((8 * (19 : Fin 20).val + (7 : Fin 8).val) * 131) % 160 := by decide

theorem witness_ScatterWiresBits :
    (liveState .scattering).phase = .scattering ∧ (liveState .scattering).acc = .val indexAcc ∧ 1279 < 1280 := by decide

theorem witness_CombineXorsRotatedBlocks :
    (liveState .combining).phase = .combining ∧ (liveState .combining).blk = .val blocksV32 := by decide

theorem witness_CombinationBitByBit :
    (liveState .scattering).phase = .scattering ∧ (liveState .scattering).acc = .val indexAcc ∧ 159 < 160 := by decide

theorem witness_FoldReversesThenXorsLength :
    (liveState .folding).phase = .folding ∧ (liveState .folding).res = .val block0 ∧
    (liveState .folding).cnt = .val 0x0102030405060708 ∧ (7 : Fin 20).val < 8 ∧ 8 ≤ (8 : Fin 20).val := by decide

theorem witness_ZeroAndXorReturnBlocks : block0 = block0 ∧ block0 ≠ zeroBlock := by decide

theorem witness_BrevAndExt8ReturnBlocks : 1 ≤ (1 : Fin 20).val ∧ 1 ≤ (19 : Fin 20).val := by decide

theorem witness_RotlRotatesWholeBlock : 0 < 160 ∧ 1 ≤ 1 ∧ 159 < 160 ∧ 160 ≤ 160 := by decide

/-- Both clauses: a count of whole bytes, and the largest, which has both parts. -/
theorem witness_RotlByteArrayForm :
    ((0 : Fin 20).val = ((1 : Fin 20).val + 20 - (8 : Fin 160).val / 8) % 20 ∧
      (19 : Fin 20).val = ((1 : Fin 20).val + 40 - (8 : Fin 160).val / 8 - 1) % 20 ∧ (8 : Fin 160).val % 8 = 0) ∧
    ((1 : Fin 20).val = ((0 : Fin 20).val + 20 - (159 : Fin 160).val / 8) % 20 ∧
      (0 : Fin 20).val = ((0 : Fin 20).val + 40 - (159 : Fin 160).val / 8 - 1) % 20 ∧ 0 < (159 : Fin 160).val % 8) := by decide

theorem witness_Ext64PlacesCounter : (7 : Fin 20).val < 8 ∧ 8 ≤ (8 : Fin 20).val := by decide

theorem witness_DatapathLaws :
    (1 : Fin 160).val = ((159 : Fin 160).val + (2 : Fin 160).val) % 160 ∧ (0 : Fin 160).val = (160 - (0 : Fin 160).val) % 160 ∧
    (1 : Fin 160).val = (160 - (159 : Fin 160).val) % 160 ∧
    (159 : Fin 160).val = 8 * (19 : Fin 20).val + (7 : Fin 8).val ∧ (7 : Fin 160).val = (7 : Fin 8).val := by decide

/-- A host command, and a first byte at the port. -/
theorem witness_EveryRejectionHasItsCondition :
    opClass (.absorb 161 []) = .hostCommand ∧ opClass .rdigest = .hostCommand ∧
    ({ liveState .start with port := [0x06] } : State).port = 0x06 :: [] := by decide

/-- The four clauses: no command's code; a length of 161; a chunk outside `Accumulating`; a chunk past the counter's end. -/
theorem witness_ChecksHappenInOrder :
    ((0x00 : Byte) ≠ 1 ∧ (0x00 : Byte) ≠ 2 ∧ (0x00 : Byte) ≠ 3 ∧ (0x00 : Byte) ≠ 4 ∧ (0x00 : Byte) ≠ 5) ∧
    160 < (161 : Byte).toNat ∧
    ((160 : Byte).toNat ≤ 160 ∧ (List.replicate 160 (0 : Byte)).length = (160 : Byte).toNat ∧
      (liveState .done).phase ≠ .accumulating) ∧
    ((liveState .accumulating).phase = .accumulating ∧
      (withCount 0xffffffffffffff60 (liveState .accumulating)).cnt = .val 0xffffffffffffff60 ∧
      2 ^ 64 - 1 < (0xffffffffffffff60 : Count).toNat + (160 : Byte).toNat) := by decide

theorem witness_RejectedCommandChangesNothing :
    opClass .init = .hostCommand ∧
    onNext (exec .init (liveState .folding)) (fun t =>
      t.responses == (liveState .folding).responses ++ [{ status := .error .ePhase, payload := [] }]) = true ∧
    engineStepOf (liveState .folding).phase = some .fold := by decide

theorem witness_EngineStepNeedsItsPhase :
    (liveState .start).phase ≠ .scattering ∧ (liveState .start).phase ≠ .combining ∧ (liveState .start).phase ≠ .folding := by
  decide

/-- States no run reaches, with a register `undef` that the phase reads. -/
theorem witness_UndefReadFaults :
    (let s : State := { State.reset with phase := .scattering }; s.phase = .scattering ∧ s.acc = .undef) ∧
    (let s : State := { State.reset with phase := .combining }; s.phase = .combining ∧ s.blk = .undef) ∧
    (let s : State := { State.reset with phase := .folding }; s.phase = .folding ∧ s.res = .undef) ∧
    (let s : State := { State.reset with phase := .folding, res := .val block0 }; s.phase = .folding ∧ s.res = .val block0 ∧ s.cnt = .undef) ∧
    (let s : State := { State.reset with phase := .done }; s.phase = .done ∧ s.res = .undef) ∧
    (let s : State := { State.reset with phase := .accumulating }; 0 ≤ 160 ∧ ([] : List Byte).length = 0 ∧ s.phase = .accumulating ∧ s.cnt = .undef) ∧
    (let s : State := { State.reset with phase := .accumulating, cnt := .val 0 };
      s.phase = .accumulating ∧ s.cnt = .val 0 ∧ (0 : Count).toNat + 160 ≤ 2 ^ 64 - 1 ∧ s.acc = .undef) := by decide

/-- The shortest and the longest chunk, and a command without operands. -/
theorem witness_PortReadsEncodedCommand :
    ((Instr.absorb 0 []).wellFormed = true ∧ opClass (.absorb 0 []) = .hostCommand) ∧
    (Instr.absorb 160 (List.replicate 160 0xff)).wellFormed = true ∧
    Instr.status.wellFormed = true ∧ opClass .status = .hostCommand := by decide

theorem witness_TraceReadsEncodedOperation :
    (Instr.rotl block0 159).wellFormed = true ∧ (Instr.ext64 0xffffffffffffffff).wellFormed = true ∧ Instr.fold.wellFormed = true := by
  decide

theorem witness_PortReadsNothingElse : decodePort [0x02, 0x01, 0xa5, 0x04] = .command (.absorb 1 [0xa5]) [0x04] := by decide

theorem witness_StepPerformsPortCommand :
    (Instr.absorb 1 [0xa5]).wellFormed = true ∧ opClass (.absorb 1 [0xa5]) = .hostCommand ∧
    ({ liveState .accumulating with port := [0x02, 0x01, 0xa5, 0x04] } : State).port = encode (.absorb 1 [0xa5]) ++ [0x04] := by
  decide

theorem witness_StepTakesEngineStep :
    decodePort (liveState .scattering).port = .incomplete ∧ (liveState .scattering).phase = .scattering ∧
    (liveState .scattering).input = [] ∧ (liveState .combining).phase = .combining ∧ (liveState .folding).phase = .folding ∧
    ({ liveState .folding with input := [.engine] } : State).input = .engine :: [] := by decide

/-- A reset while two of a command's five bytes have arrived. -/
def resetWaiting : State := { liveState .accumulating with port := [0x02, 0x03], input := [.reset, .engine] }

/-- One event for each clause, and a state that waits. -/
theorem witness_StepTakesOutsideEvents :
    decodePort (liveState .start).port = .incomplete ∧
    ({ liveState .start with input := [.bytes [0x01]] } : State).input = .bytes [0x01] :: [] ∧
    (({ liveState .start with input := [.command .init] } : State).input = .command .init :: [] ∧ opClass .init = .hostCommand) ∧
    (({ liveState .start with input := [.command .fold] } : State).input = .command .fold :: [] ∧ opClass .fold ≠ .hostCommand) ∧
    (({ liveState .start with input := [.evaluate .zero] } : State).input = .evaluate .zero :: [] ∧ opClass .zero = .datapath) ∧
    (decodePort resetWaiting.port = .incomplete ∧ resetWaiting.input = .reset :: [.engine]) ∧
    busy (liveState .start) = false ∧ (liveState .start).input = [] ∧
    ({ liveState .start with input := [.engine] } : State).input = .engine :: [] := by decide

theorem witness_ThreeEngineStepsFinalize :
    (liveState .scattering).phase = .scattering ∧ (liveState .scattering).acc = .val indexAcc ∧
    (liveState .scattering).cnt = .val 160 := by decide

/-- A row of each class. -/
theorem witness_TableWordRunsNext :
    (decodeTableWord 16 0x0302 = some (.absorb 3 [0, 0, 0]) ∧ opClass (.absorb 3 [0, 0, 0]) = .hostCommand) ∧
    (decodeTableWord 8 0x11 = some .combine ∧ opClass .combine = .engineStep) ∧
    (decodeTableWord 8 0x20 = some .zero ∧ opClass .zero = .datapath) := by decide

/-- A live state whose step answers a next state. -/
theorem witness_StepKeepsRegistersLive :
    (liveState .folding).live ∧ ∃ t, step (liveState .folding) = .next t ∧ t.phase = .done := ⟨rfl, _, rfl, rfl⟩

theorem witness_LiveStepNeverFaults : (liveState .done).live := rfl

/-- A phase change by an operation, and one by reset. -/
theorem witness_OnlyListedPhaseTransitions :
    (∃ t, step (liveState .folding) = .next t ∧ t.phase ≠ (liveState .folding).phase) ∧
    ∃ t, step { liveState .folding with input := [.reset] } = .next t ∧ t.phase ≠ (liveState .folding).phase :=
  ⟨⟨_, rfl, by decide⟩, _, rfl, by decide⟩

theorem witness_AbortedLeftOnlyByInitOrReset :
    (liveState .aborted).phase = .aborted ∧
    ∃ t, step { liveState .aborted with port := [0x01] } = .next t ∧ t.phase = .accumulating := ⟨rfl, _, rfl, rfl⟩

theorem witness_CounterFixedAfterAccumulation :
    (∃ t, step (liveState .folding) = .next t ∧ t.cnt = (liveState .folding).cnt) ∧ (liveState .folding).phase = .folding ∧
    ∃ t, step { liveState .done with port := [0x01] } = .next t ∧ t.cnt = .val 0 := ⟨⟨_, rfl, rfl⟩, rfl, _, rfl, rfl⟩

theorem witness_OperationsWriteOnlyTheirRegisters : ∃ t, exec .fold (liveState .folding) = .next t ∧ t.blk ≠ (liveState .folding).blk :=
  ⟨_, rfl, by decide⟩

/-- Two states that differ in a register the operation does not read. -/
theorem witness_OperationsReadOnlyTheirRegisters :
    (liveState .folding).phase = ({ liveState .folding with blk := .undef } : State).phase ∧
    (liveState .folding).res = ({ liveState .folding with blk := .undef } : State).res ∧
    (liveState .folding).cnt = ({ liveState .folding with blk := .undef } : State).cnt ∧
    (∃ t, exec .fold (liveState .folding) = .next t) ∧ (∃ t, exec .scatter (liveState .scattering) = .next t) ∧
    (∃ t, exec .combine (liveState .combining) = .next t) ∧ ∃ t, exec (.absorb 1 [0xa5]) (liveState .accumulating) = .next t :=
  ⟨rfl, rfl, rfl, ⟨_, rfl⟩, ⟨_, rfl⟩, ⟨_, rfl⟩, _, rfl⟩

/-- Two accumulating states with different accumulators and counters, and the commands that see them. -/
theorem witness_HostLearnsOnlyPhaseAndDigest :
    opClass .rdigest = .hostCommand ∧ (liveState .accumulating).phase = (withCount 7 (liveState .accumulating)).phase ∧
    (liveState .accumulating).phase ≠ .done ∧ (160 : Count).toNat + 160 ≤ 2 ^ 64 - 1 ∧
    (∃ t, exec (.absorb 0 []) (liveState .accumulating) = .next t) ∧
    (∃ t, exec .rdigest (liveState .accumulating) = .next t) ∧ ∃ t, exec .rdigest (withCount 7 (liveState .accumulating)) = .next t :=
  ⟨rfl, rfl, by decide, by decide, ⟨_, rfl⟩, ⟨_, rfl⟩, _, rfl⟩

theorem witness_EveryHostCommandSendsOneResponse :
    opClass .rdigest = .hostCommand ∧ (∃ t, exec .rdigest (liveState .done) = .next t) ∧
    (∃ t, exec .rdigest (liveState .start) = .next t) ∧ ∃ t, exec .status (liveState .aborted) = .next t :=
  ⟨rfl, ⟨_, rfl⟩, ⟨_, rfl⟩, _, rfl⟩

/-- A clean entry in each of its three phases; `abc` is a stream the counter can take. -/
theorem witness_FeedAccumulatesByLanes :
    State.reset.cleanEntry ∧ (liveState .done).cleanEntry ∧ (liveState .aborted).cleanEntry ∧
    ([0x61, 0x62, 0x63] : List Byte).length ≤ 2 ^ 64 - 1 :=
  ⟨.inl rfl, .inr (.inl rfl), .inr (.inr rfl), by decide⟩

theorem witness_EngineComputesQxh : State.reset.cleanEntry ∧ ([0x61, 0x62, 0x63] : List Byte).length ≤ 2 ^ 64 - 1 :=
  ⟨.inl rfl, by decide⟩

/-- A host that sends the bytes of INIT and `FEED abc`. -/
theorem witness_UndisturbedRunEndsCompleted :
    let st : State := { State.reset with input := [.bytes (portBytes (.init :: feed [0x61, 0x62, 0x63]))] }
    st.cleanEntry ∧ ([0x61, 0x62, 0x63] : List Byte).length ≤ 2 ^ 64 - 1 ∧ st.port = [] ∧
      st.input = [.bytes (portBytes (.init :: feed [0x61, 0x62, 0x63]))] := ⟨.inl rfl, by decide, rfl, rfl⟩

theorem witness_QxhUnderEitherLengthOrder : (liveState .done).cleanEntry ∧ (List.replicate 161 (7 : Byte)).length ≤ 2 ^ 64 - 1 :=
  ⟨.inr (.inl rfl), by decide⟩

/-- Byte 0 and byte 160 of a stream of 161 bytes, bits 0 and 7. -/
theorem witness_FlippedBitFlipsOneDigestBit :
    0 < (List.replicate 161 (7 : Byte)).length ∧ 0 + 160 < (List.replicate 161 (7 : Byte)).length ∧ 0 < 8 ∧ 7 < 8 ∧ 159 < 160 := by
  decide

theorem witness_TrailingZeroesChangeTheDigest : 0 < 1 ∧ ([0x61] : List Byte).length + 1 ≤ 2 ^ 64 - 1 := by decide

theorem witness_DifferentLengthsDifferentDigests : (0 : Count) ≠ 1 ∧ 8 ≤ (8 : Fin 20).val := by decide

theorem witness_RepeatedStreamLeavesOnlyTheLength :
    (List.replicate 160 (7 : Byte)).length % 160 = 0 ∧ 2 * (List.replicate 160 (7 : Byte)).length ≤ 2 ^ 64 - 1 := by decide

theorem witness_EmptyStreamDigestIsZero : State.reset.cleanEntry := .inl rfl

theorem witness_ReaderLoopIsFeed :
    ([0x61, 0x62] : List Byte).length / 160 < 1 ∧ (List.replicate 160 (7 : Byte)).length / 160 < 2 ∧
    ∀ d ∈ [List.replicate 160 (7 : Byte)], d.length = 160 := by
  decide

theorem witness_FullChunksCommute :
    let l : List (List Byte) := [List.replicate 160 1, List.replicate 160 2]
    l.Perm [List.replicate 160 2, List.replicate 160 1] ∧ (∀ d ∈ l, d.length = 160) ∧
      (liveState .accumulating).phase = .accumulating ∧ (liveState .accumulating).acc = .val indexAcc ∧
      (liveState .accumulating).cnt = .val 160 ∧ (160 : Count).toNat + 160 * l.length ≤ 2 ^ 64 - 1 :=
  ⟨.swap _ _ _, by simp, rfl, rfl, rfl, by decide⟩

theorem witness_AccumulatorFillsTheBlockSet :
    (liveState .scattering).phase = .scattering ∧ (liveState .scattering).acc = .val indexAcc := by decide

/-- R154 at three accumulator bits: bit 7 of byte 15 goes to block 5, bit 7 (V24); bit 0 of byte 29 to block 7, bit 152 (V26). -/
theorem test_scatter_bits :
    scatterBit (0, 0) = (0, 0) ∧ scatterBit (15, 7) = (5, 7) ∧ scatterBit (29, 0) = (7, 152) := by decide

end Sys2Proof.Tests.Slice0
end

