-- ==== Sys2Proof/Proofs/Scope.lean ====
section
/-! Proofs for spec/00_scope.md: R7, that SCATTER is one bijection of bits; and R10 with R270, that a busy engine takes its
own step. -/

namespace Sys2Proof.Machine

/-- In `Scattering` with an accumulator that holds a value, SCATTER writes the scattered block set and moves on (R150). -/
theorem exec_scatter_of_val {s : State} {a : AccBuffer} (hp : s.phase = .scattering) (ha : s.acc = .val a) :
    exec .scatter s = .next ((s.setBlk (.val (scatterBytes a))).setPhase .combining) := by
  change execScatter s = _
  rw [execScatter, inStepPhase_of hp, ha, readReg_val]

/-- After SCATTER accumulator bit `x` stands at `scatterBit x` (R154): its byte stands at the slot `SIGMA` gives it. -/
theorem scatterBytes_scatterBit (a : AccBuffer) (x : Fin 160 × Fin 8) :
    ((scatterBytes a)[(scatterBit x).1]).getLsbD (scatterBit x).2.val = (a[x.1]).getLsbD x.2.val := by
  rw [← scatterBytes_sigma a x.1, getLsbD_byteAt]
  simp [scatterBit]

/-- With no whole command at the port and no event to come, a busy engine takes the step of its phase (R270). -/
theorem step_of_no_input {s : State} {i : Instr} (hd : decodePort s.port = .incomplete)
    (hi : engineStepOf s.phase = some i) (hin : s.input = []) : step s = exec i s := by
  simp [step, nextTurn, hd, inputTurn, hin, engineTurn, hi]

/-- With no whole command at the port, a busy engine takes the step of its phase on its turn (R10). -/
theorem step_of_engine_event {s : State} {i : Instr} {rest : List Input} (hd : decodePort s.port = .incomplete)
    (hi : engineStepOf s.phase = some i) (hin : s.input = .engine :: rest) :
    step s = exec i { s with input := rest } := by
  simp [step, nextTurn, hd, inputTurn, hin, engineTurn, hi, State.setInput]

/-- The two occasions on which a busy engine takes its step, together. -/
theorem step_takes_engineStep {s : State} {i : Instr} (hd : decodePort s.port = .incomplete)
    (hi : engineStepOf s.phase = some i) :
    (s.input = [] → step s = exec i s) ∧
      ∀ rest, s.input = .engine :: rest → step s = exec i { s with input := rest } :=
  ⟨step_of_no_input hd hi, fun _ => step_of_engine_event hd hi⟩

/-- Settles O59: the bijection of bits is `scatterBitMap`, and SCATTER's block set holds every bit where it says. -/
theorem accumulatorFillsTheBlockSet : Obligations.AccumulatorFillsTheBlockSet := by
  refine ⟨Config.accBits_eq, Config.accBytes_eq, rfl, rfl, rfl, rfl, scatterBitMap, scatterBitMap.bijective, ?_⟩
  intro s a hp ha
  exact ⟨_, scatterBytes a, exec_scatter_of_val hp ha, rfl, scatterBytes_scatterBit a⟩

/-- Settles O32: the phase of each clause enables the step that the clause names. -/
theorem stepTakesEngineStep : Obligations.StepTakesEngineStep := by
  intro s hd
  refine ⟨fun hp => ?_, fun hp => ?_, fun hp => ?_⟩ <;>
    exact step_takes_engineStep hd (congrArg engineStepOf hp)

end Sys2Proof.Machine
end

