-- ==== Sys2Proof/Proofs/State.lean ====
section
/-! Proofs for spec/10_state.md: which operations write which register and what they read (R35), the phase transitions
(R25), which registers hold a value in each phase (R30, R31), the counter after Accumulation (R22), what a host learns (R29)
and the status outputs (R34). Every rule about a step is derived from `exec_effect`, which says once what an operation that
answers a next state did. -/

namespace Sys2Proof.Machine

/-! ## The accepted chunk, field by field -/

section
variable (n : Nat) (d : List Byte) (a : AccBuffer) (c : Count) (s : State)

@[simp] theorem absorbChunk_phase :
    (absorbChunk n d a c s).phase = if n < Config.chunk then .scattering else .accumulating := rfl
@[simp] theorem absorbChunk_acc : (absorbChunk n d a c s).acc = .val (absorbBytes a d) := rfl
@[simp] theorem absorbChunk_cnt : (absorbChunk n d a c s).cnt = .val (c + BitVec.ofNat 64 n) := rfl
@[simp] theorem absorbChunk_blk : (absorbChunk n d a c s).blk = s.blk := rfl
@[simp] theorem absorbChunk_res : (absorbChunk n d a c s).res = s.res := rfl
@[simp] theorem absorbChunk_input : (absorbChunk n d a c s).input = s.input := rfl
@[simp] theorem absorbChunk_port : (absorbChunk n d a c s).port = s.port := rfl
@[simp] theorem absorbChunk_responses : (absorbChunk n d a c s).responses = s.responses := rfl
@[simp] theorem absorbChunk_values : (absorbChunk n d a c s).values = s.values := rfl

end

/-! ## The engine steps and ABSORB, by what they read -/

/-- In `Combining` with a block set that holds a value, COMBINE writes the combination and moves on (R170). -/
theorem exec_combine_of_val {s : State} {b : BlockSet} (hp : s.phase = .combining) (hb : s.blk = .val b) :
    exec .combine s = .next ((s.setRes (.val (combineBlocks b))).setPhase .folding) := by
  change execCombine s = _
  rw [execCombine, inStepPhase_of hp, hb, readReg_val]

/-- In `Folding` with the combination and the counter holding values, FOLD writes the digest and discards BLK (R190). -/
theorem exec_fold_of_val {s : State} {r : Block} {c : Count} (hp : s.phase = .folding) (hr : s.res = .val r)
    (hc : s.cnt = .val c) :
    exec .fold s = .next (((s.setRes (.val (foldLength lenOrderInForce r c))).setBlk .undef).setPhase .done) := by
  change foldUnder lenOrderInForce s = _
  rw [foldUnder, inStepPhase_of hp, hr, readReg_val, hc, readReg_val]

/-- Outside its phase an engine step is refused, whatever it would have done (log 11). -/
theorem inStepPhase_of_ne {p : Phase} {s : State} {k : Result} (h : s.phase ≠ p) :
    inStepPhase p s k = .refused (.stepNotEnabled s.phase) := if_neg h

theorem accept_next {p : List Byte} {s t : State} : accept p s = .next t ↔ t = s.respond (okResponse p) := by
  rw [accept_eq, Host.Outcome.next.injEq, eq_comm]; rfl

theorem reject_next {e : ErrorCode} {s t : State} : reject e s = .next t ↔ t = s.respond (errorResponse e) := by
  rw [reject_eq, Host.Outcome.next.injEq, eq_comm]; rfl

/-- Operands that are no chunk: `E_LENGTH` (R86, R131). -/
theorem execAbsorb_of_not_chunk {n : Nat} {d : List Byte} {s : State} (hk : chunkOk n d = false) :
    execAbsorb n d s = .next (s.respond (errorResponse .eLength)) := by
  simp [execAbsorb, absorbUnder, hk, reject, errorResponse]

/-- A chunk outside `Accumulating`: `E_PHASE` (R131). -/
theorem execAbsorb_of_phase_ne {n : Nat} {d : List Byte} {s : State} (hk : chunkOk n d = true)
    (hp : s.phase ≠ .accumulating) : execAbsorb n d s = .next (s.respond (errorResponse .ePhase)) := by
  simp [execAbsorb, absorbUnder, hk, hp, inPhase, reject, errorResponse]

/-- A chunk in `Accumulating`: CNT is read, then the counter's range is checked, then ACC is read (R131; log 16). -/
theorem execAbsorb_of_accumulating {n : Nat} {d : List Byte} {s : State} (hk : chunkOk n d = true)
    (hp : s.phase = .accumulating) :
    execAbsorb n d s = readReg .cnt s.cnt fun c =>
      if 2 ^ 64 - 1 < c.toNat + n then reject .eOverflow s
      else readReg .acc s.acc fun a => accept [] (absorbChunk n d a c s) := by
  simp [execAbsorb, absorbUnder, hk, hp, show overflowInForce = .fault from rfl, Config.countMax]

/-- ABSORB's four answers, each with the condition on PHASE, CNT and ACC under which it is given (R131, R235). -/
theorem execAbsorb_next {n : Nat} {d : List Byte} {s t : State} :
    execAbsorb n d s = .next t ↔
      (chunkOk n d = false ∧ t = s.respond (errorResponse .eLength)) ∨
      (chunkOk n d = true ∧ s.phase ≠ .accumulating ∧ t = s.respond (errorResponse .ePhase)) ∨
      (chunkOk n d = true ∧ s.phase = .accumulating ∧ ∃ c, s.cnt = .val c ∧
        ((2 ^ 64 - 1 < c.toNat + n ∧ t = s.respond (errorResponse .eOverflow)) ∨
         (c.toNat + n ≤ 2 ^ 64 - 1 ∧ ∃ a, s.acc = .val a ∧ t = (absorbChunk n d a c s).respond (okResponse [])))) := by
  cases hk : chunkOk n d with
  | false => simp [execAbsorb_of_not_chunk hk, eq_comm]
  | true =>
    by_cases hp : s.phase = .accumulating
    · simp only [execAbsorb_of_accumulating hk hp, readReg_next, hp, reduceCtorEq, false_and, ne_eq, not_true_eq_false,
        and_false, true_and, false_or]
      refine exists_congr fun c => and_congr_right fun _ => ?_
      split
      · next ho => simp only [ho, Nat.not_le.2 ho, true_and, false_and, or_false, reject_next]
      · next ho => simp only [ho, Nat.not_lt.1 ho, true_and, false_and, false_or, readReg_next, accept_next]
    · simp [execAbsorb_of_phase_ne hk hp, hp, eq_comm]

/-! ## What an operation that answers a next state did -/

/-- What operation `i` made of `s`: a response and nothing else, one of the six changes of the registers that R35 lists, or a
datapath function's Block. -/
inductive Effect (s : State) : Instr → State → Prop
  /-- STATUS, RDIGEST, or a command turned away (R193, R194, R237) -/
  | answered {i : Instr} (r : Response) (hi : opClass i = .hostCommand) : Effect s i (s.respond r)
  /-- INIT (R130) -/
  | begun (hp : acceptsInit s.phase = true) : Effect s .init ((beginComputation s).respond (okResponse []))
  /-- ABSORB of an accepted chunk (R131) -/
  | absorbed {n : Nat} {d : List Byte} {a : AccBuffer} {c : Count} (hk : chunkOk n d = true)
      (hp : s.phase = .accumulating) (ha : s.acc = .val a) (hc : s.cnt = .val c) :
      Effect s (.absorb n d) ((absorbChunk n d a c s).respond (okResponse []))
  /-- ABORT (R231) -/
  | aborted (hp : s.phase = .accumulating) : Effect s .abort ((enterAborted s).respond (okResponse []))
  /-- SCATTER (R150) -/
  | scattered {a : AccBuffer} (hp : s.phase = .scattering) (ha : s.acc = .val a) :
      Effect s .scatter ((s.setBlk (.val (scatterBytes a))).setPhase .combining)
  /-- COMBINE (R170) -/
  | combined {b : BlockSet} (hp : s.phase = .combining) (hb : s.blk = .val b) :
      Effect s .combine ((s.setRes (.val (combineBlocks b))).setPhase .folding)
  /-- FOLD (R190) -/
  | folded {r : Block} {c : Count} (hp : s.phase = .folding) (hr : s.res = .val r) (hc : s.cnt = .val c) :
      Effect s .fold (((s.setRes (.val (foldLength lenOrderInForce r c))).setBlk .undef).setPhase .done)
  /-- a datapath function's Block (log 8) -/
  | returned {i : Instr} (b : Block) (hi : opClass i = .datapath) : Effect s i (s.emit b)

/-- The inversion of `exec`: an operation that answers a next state had one of the effects listed. -/
theorem exec_effect {i : Instr} {s t : State} (h : exec i s = .next t) : Effect s i t := by
  cases hi : opClass i with
  | datapath =>
    obtain ⟨b, rfl⟩ := exec_datapath_cases hi h
    exact .returned b hi
  | engineStep =>
    cases i <;> simp only [opClass, reduceCtorEq] at hi
    case scatter => obtain ⟨hp, a, ha, rfl⟩ := execScatter_cases h; exact .scattered hp ha
    case combine => obtain ⟨hp, b, hb, rfl⟩ := execCombine_cases h; exact .combined hp hb
    case fold => obtain ⟨hp, r, c, hr, hc, rfl⟩ := execFold_cases h; exact .folded hp hr hc
  | hostCommand =>
    cases i <;> simp only [opClass, reduceCtorEq] at hi
    case init =>
      obtain ⟨hp, rfl⟩ | ⟨-, rfl⟩ := execInit_cases h
      · exact .begun hp
      · exact .answered _ rfl
    case absorb n d =>
      obtain ⟨e, rfl⟩ | ⟨hk, hp, a, c, ha, hc, rfl⟩ := execAbsorb_cases h
      · exact .answered _ rfl
      · exact .absorbed hk hp ha hc
    case abort =>
      obtain ⟨hp, rfl⟩ | ⟨-, rfl⟩ := execAbort_cases h
      · exact .aborted hp
      · exact .answered _ rfl
    case status => cases h; exact .answered _ rfl
    case rdigest => obtain ⟨-, d, -, rfl⟩ | ⟨-, rfl⟩ := execRdigest_cases h <;> exact .answered _ rfl

/-! ## The registers as R31 says -/

@[simp] theorem Reg.isDef_undef {α : Type} : (Reg.undef : Reg α).isDef = false := rfl

@[simp] theorem Reg.isDef_val {α : Type} (v : α) : (Reg.val v).isDef = true := rfl

theorem State.live_iff (s : State) :
    s.live ↔ [s.acc.isDef, s.cnt.isDef, s.blk.isDef, s.res.isDef] = definedIn s.phase := Iff.rfl

/-- The interface has no part in R31. -/
theorem sameButInterface.live_iff {s u : State} (h : sameButInterface s u) : u.live ↔ s.live := by
  rw [h]; rfl

/-- An accepted chunk, terminal or full, ends in a phase with `Accumulating`'s row of R31's table. -/
theorem definedIn_absorbChunk (n : Nat) (d : List Byte) (a : AccBuffer) (c : Count) (s : State) :
    definedIn (absorbChunk n d a c s).phase = definedIn .accumulating := by
  rw [absorbChunk_phase]; split <;> rfl

/-- Every operation keeps R31's table: what it writes turns the row of its phase into the row of the next one. -/
theorem Effect.live {i : Instr} {s t : State} (h : Effect s i t) (hs : s.live) : t.live := by
  rw [State.live_iff] at hs
  cases h with
  | answered r => exact hs
  | begun => rfl
  | absorbed hk hp =>
    rw [State.live_iff, State.respond_phase, definedIn_absorbChunk]
    simp_all [definedIn]
  | aborted hp => simp_all [State.live_iff, definedIn]
  | scattered hp => simp_all [State.live_iff, definedIn]
  | combined hp => simp_all [State.live_iff, definedIn]
  | folded hp => simp_all [State.live_iff, definedIn]
  | returned b => exact hs

/-- From a live state no operation faults: each read of `undef` that could fault is of a register R31 lists as holding a
value in that phase (U2). -/
theorem exec_ne_fault_of_live {i : Instr} {s : State} {f : Fault} (hs : s.live) : exec i s ≠ .fault f := by
  intro h
  rw [State.live_iff] at hs
  obtain ⟨n, d, -, hp, hr | hr⟩ | ⟨-, hp, hr⟩ | ⟨-, hp, hr⟩ | ⟨-, hp, hr⟩ | ⟨-, hp, hr | hr⟩ := exec_fault_cases h <;>
    simp [hp, hr, definedIn] at hs

theorem noFault_iff (r : Result) : noFault r ↔ ∀ f, r ≠ .fault f := by
  cases r <;> simp [noFault]

/-- Settles O36: every register is `undef` at reset, as R31 says of `Start`. -/
theorem resetStateIsLive : Obligations.ResetStateIsLive := rfl

/-- Settles O37: by the cases of a step; an operation keeps R31's table by its effect, reset puts `Start`'s row in force, and
every other step changes only the interface or the responses. -/
theorem stepKeepsRegistersLive : Obligations.StepKeepsRegistersLive := by
  intro s t hs h
  obtain ⟨i, u, -, -, hu, he⟩ | ⟨e, u, hu, rfl⟩ | ⟨rest, -, -, rfl⟩ | ht := step_cases h
  · exact (exec_effect he).live (hu.live_iff.2 hs)
  · exact hu.live_iff.2 hs
  · rfl
  · exact ht.live_iff.2 hs

/-- Settles O38: a step faults only in performing an operation, and from a live state no operation does. -/
theorem liveStepNeverFaults : Obligations.LiveStepNeverFaults := by
  intro s hs
  rw [noFault_iff]
  intro f h
  obtain ⟨i, u, -, hu, he⟩ := step_fault_cases h
  exact exec_ne_fault_of_live (hu.live_iff.2 hs) he

/-! ## The phase and the counter -/

/-- R25's table less reset: operation `i` takes the phase from `p` to `q`. -/
def ListedTransition (i : Instr) (p q : Phase) : Prop :=
  (i = .init ∧ (p = .start ∨ p = .done ∨ p = .aborted) ∧ q = .accumulating) ∨
  (∃ n d, i = .absorb n d ∧ n < 160 ∧ p = .accumulating ∧ q = .scattering) ∨
  (i = .abort ∧ p = .accumulating ∧ q = .aborted) ∨
  (i = .scatter ∧ p = .scattering ∧ q = .combining) ∨
  (i = .combine ∧ p = .combining ∧ q = .folding) ∨
  (i = .fold ∧ p = .folding ∧ q = .done)

/-- An operation that changes the phase makes a transition of R25's table; a full chunk makes none. -/
theorem Effect.listedTransition {i : Instr} {s t : State} (h : Effect s i t) (hne : t.phase ≠ s.phase) :
    ListedTransition i s.phase t.phase := by
  cases h with
  | answered r => exact absurd rfl hne
  | begun hp => exact .inl ⟨rfl, (acceptsInit_iff _).1 hp, rfl⟩
  | @absorbed n d a c hk hp =>
    by_cases hn : n < 160
    · exact .inr (.inl ⟨n, d, rfl, hn, hp, if_pos hn⟩)
    · exact absurd ((if_neg hn).trans hp.symm) hne
  | aborted hp => exact .inr (.inr (.inl ⟨rfl, hp, rfl⟩))
  | scattered hp => exact .inr (.inr (.inr (.inl ⟨rfl, hp, rfl⟩)))
  | combined hp => exact .inr (.inr (.inr (.inr (.inl ⟨rfl, hp, rfl⟩))))
  | folded hp => exact .inr (.inr (.inr (.inr (.inr ⟨rfl, hp, rfl⟩))))
  | returned b => exact absurd rfl hne

/-- Settles O39: only an operation or reset changes the phase, and an operation does so by R25's table. -/
theorem onlyListedPhaseTransitions : Obligations.OnlyListedPhaseTransitions := by
  intro s t h hne
  obtain ⟨i, u, hn, -, hu, he⟩ | ⟨e, u, hu, rfl⟩ | ⟨rest, -, hin, rfl⟩ | ht := step_cases h
  · have hp : u.phase = s.phase := hu.fields.1
    exact .inr ⟨i, u, hn, hp ▸ (exec_effect he).listedTransition (hp ▸ hne)⟩
  · exact absurd hu.fields.1 hne
  · exact .inl ⟨rfl, rest, hin⟩
  · exact absurd ht.fields.1 hne

/-- An operation changes CNT in `Accumulating` only, but for INIT, which sets it to zero (R22, R130). -/
theorem Effect.cnt_cases {i : Instr} {s t : State} (h : Effect s i t) :
    t.cnt = s.cnt ∨ s.phase = .accumulating ∨
      (acceptsInit s.phase = true ∧ t.phase = .accumulating ∧ t.cnt = .val 0) := by
  cases h with
  | begun hp => exact .inr (.inr ⟨hp, rfl, rfl⟩)
  | absorbed hk hp => exact .inr (.inl hp)
  | aborted hp => exact .inr (.inl hp)
  | _ => exact .inl rfl

/-- Settles O41: of the four phases only `Done` accepts INIT, and none is `Accumulating`. -/
theorem counterFixedAfterAccumulation : Obligations.CounterFixedAfterAccumulation := by
  intro s t h hp
  obtain ⟨i, u, -, -, hu, he⟩ | ⟨e, u, hu, rfl⟩ | ⟨rest, -, -, rfl⟩ | ht := step_cases h
  · obtain ⟨hup, -, huc, -⟩ := hu.fields
    obtain hc | ha | ⟨hi, htp, htc⟩ := (exec_effect he).cnt_cases
    · exact .inl (hc.trans huc)
    · rw [← hup, ha] at hp
      simp at hp
    · refine .inr (.inl ⟨?_, htp, htc⟩)
      rw [hup, acceptsInit_iff] at hi
      obtain hp | hp | hp | hp := hp <;> simp_all
  · obtain ⟨-, -, huc, -⟩ := hu.fields
    exact .inl huc
  · exact .inr (.inr ⟨rfl, rfl⟩)
  · obtain ⟨-, -, htc, -⟩ := ht.fields
    exact .inl htc

/-! ## The access matrix -/

/-- Settles O42: by the effects, each of which names the operation and the fields it writes. -/
theorem operationsWriteOnlyTheirRegisters : Obligations.OperationsWriteOnlyTheirRegisters := by
  intro i s t h
  cases exec_effect h with
  | answered r hi => simp [hi]
  | begun => simp [opClass]
  | absorbed => simp [opClass]
  | aborted => simp [opClass]
  | scattered => simp
  | combined => simp
  | folded => simp
  | returned b hi => simp [hi]

/-- Two states with the same phase, CNT and ACC: ABSORB answers both alike (R35). -/
theorem execAbsorb_congr {n : Nat} {d : List Byte} {s u t : State} (hp : s.phase = u.phase) (ha : s.acc = u.acc)
    (hc : s.cnt = u.cnt) (h : execAbsorb n d s = .next t) :
    ∃ v, execAbsorb n d u = .next v ∧ v.phase = t.phase ∧ v.acc = t.acc ∧ v.cnt = t.cnt ∧
      ∃ r, t.responses = s.responses ++ [r] ∧ v.responses = u.responses ++ [r] := by
  obtain ⟨hk, rfl⟩ | ⟨hk, hq, rfl⟩ | ⟨hk, hq, c, hs, ⟨ho, rfl⟩ | ⟨ho, a, hsa, rfl⟩⟩ := execAbsorb_next.1 h
  · exact ⟨_, execAbsorb_next.2 (.inl ⟨hk, rfl⟩), hp.symm, ha.symm, hc.symm, _, rfl, rfl⟩
  · exact ⟨_, execAbsorb_next.2 (.inr (.inl ⟨hk, hp ▸ hq, rfl⟩)), hp.symm, ha.symm, hc.symm, _, rfl, rfl⟩
  · exact ⟨_, execAbsorb_next.2 (.inr (.inr ⟨hk, hp ▸ hq, c, hc ▸ hs, .inl ⟨ho, rfl⟩⟩)), hp.symm, ha.symm, hc.symm,
      _, rfl, rfl⟩
  · exact ⟨_, execAbsorb_next.2 (.inr (.inr ⟨hk, hp ▸ hq, c, hc ▸ hs, .inr ⟨ho, a, ha ▸ hsa, rfl⟩⟩)), rfl, rfl, rfl,
      _, rfl, rfl⟩

/-- Settles O43: the values an operation read in one state are those it reads in the other. -/
theorem operationsReadOnlyTheirRegisters : Obligations.OperationsReadOnlyTheirRegisters := by
  intro s u t hp
  refine ⟨fun ha h => ?_, fun hb h => ?_, fun hr hc h => ?_, fun n d ha hc h => execAbsorb_congr hp ha hc h⟩
  · obtain ⟨hq, a, hs, rfl⟩ := execScatter_cases h
    exact ⟨_, exec_scatter_of_val (hp ▸ hq) (ha ▸ hs), rfl, rfl⟩
  · obtain ⟨hq, b, hs, rfl⟩ := execCombine_cases h
    exact ⟨_, exec_combine_of_val (hp ▸ hq) (hb ▸ hs), rfl, rfl⟩
  · obtain ⟨hq, r, c, hs, hsc, rfl⟩ := execFold_cases h
    exact ⟨_, exec_fold_of_val (hp ▸ hq) (hr ▸ hs) (hc ▸ hsc), rfl, rfl, rfl⟩

/-! ## What a host learns -/

theorem execInit_responses {s t : State} (h : execInit s = .next t) :
    t.responses = s.responses ++ [if acceptsInit s.phase then okResponse [] else errorResponse .ePhase] := by
  obtain ⟨hp, rfl⟩ | ⟨hp, rfl⟩ := execInit_cases h <;> simp [hp, okResponse, errorResponse]

theorem execAbort_responses {s t : State} (h : execAbort s = .next t) :
    t.responses = s.responses ++ [if s.phase = .accumulating then okResponse [] else errorResponse .ePhase] := by
  obtain ⟨hp, rfl⟩ | ⟨hp, rfl⟩ := execAbort_cases h <;> simp [hp, okResponse, errorResponse]

/-- Where the counter can take the chunk, ABSORB's response is decided by the operands and the phase. -/
theorem execAbsorb_responses {n : Nat} {d : List Byte} {s t : State}
    (hm : ∀ c, s.cnt = .val c → c.toNat + n ≤ 2 ^ 64 - 1) (h : execAbsorb n d s = .next t) :
    t.responses = s.responses ++ [if chunkOk n d then if s.phase = .accumulating then okResponse [] else errorResponse .ePhase
      else errorResponse .eLength] := by
  obtain ⟨hk, rfl⟩ | ⟨hk, hq, rfl⟩ | ⟨hk, hq, c, hc, ⟨ho, rfl⟩ | ⟨-, a, -, rfl⟩⟩ := execAbsorb_next.1 h
  · simp [hk]
  · simp [hk, hq]
  · exact absurd (hm c hc) (Nat.not_le.2 ho)
  · simp [hk, hq]

/-- RDIGEST answers alike in two states of one phase, if they hold the same digest in `Done`. -/
theorem execRdigest_responses {s u t v : State} (hp : s.phase = u.phase) (hr : s.phase = .done → s.res = u.res)
    (ht : execRdigest s = .next t) (hv : execRdigest u = .next v) :
    ∃ r, t.responses = s.responses ++ [r] ∧ v.responses = u.responses ++ [r] := by
  obtain ⟨hs, d, hsd, rfl⟩ | ⟨hs, rfl⟩ := execRdigest_cases ht <;>
    obtain ⟨hu, e, hue, rfl⟩ | ⟨hu, rfl⟩ := execRdigest_cases hv
  · obtain rfl : d = e := Reg.val.inj (hsd.symm.trans ((hr hs).trans hue))
    exact ⟨_, rfl, rfl⟩
  · exact absurd (hp ▸ hs) hu
  · exact absurd (hp ▸ hu) hs
  · exact ⟨_, rfl, rfl⟩

/-- Settles O44: each command's response is written from what it may depend on. -/
theorem hostLearnsOnlyPhaseAndDigest : Obligations.HostLearnsOnlyPhaseAndDigest := by
  intro i s u t v hi hp hr hm ht hv
  cases i <;> simp only [opClass, reduceCtorEq] at hi
  case init => exact ⟨_, execInit_responses ht, hp ▸ execInit_responses hv⟩
  case absorb n d =>
    exact ⟨_, execAbsorb_responses (fun c hc => hm n d c rfl (.inl hc)) ht,
      hp ▸ execAbsorb_responses (fun c hc => hm n d c rfl (.inr hc)) hv⟩
  case abort => exact ⟨_, execAbort_responses ht, hp ▸ execAbort_responses hv⟩
  case status =>
    cases ht
    cases hv
    exact ⟨_, rfl, by rw [hp]; rfl⟩
  case rdigest => exact execRdigest_responses hp hr ht hv

/-! ## Refused steps, `undef` reads and the status outputs -/

/-- Settles O24: the guard of each engine step. -/
theorem engineStepNeedsItsPhase : Obligations.EngineStepNeedsItsPhase :=
  fun _ => ⟨inStepPhase_of_ne, inStepPhase_of_ne, inStepPhase_of_ne⟩

/-- Settles O25: past its guard each reader meets the `undef` register. -/
theorem undefReadFaults : Obligations.UndefReadFaults := by
  intro s
  refine ⟨fun hp ha => ?_, fun hp hb => ?_, fun hp hr => ?_, fun h hp hr hc => ?_, fun hp hr => ?_,
    fun n d hn hd hp hc => ?_, fun n d c hn hd hp hc hm ha => ?_⟩
  · change execScatter s = _
    rw [execScatter, inStepPhase_of hp, ha, readReg_undef]
  · change execCombine s = _
    rw [execCombine, inStepPhase_of hp, hb, readReg_undef]
  · change foldUnder _ s = _
    rw [foldUnder, inStepPhase_of hp, hr, readReg_undef]
  · change foldUnder _ s = _
    rw [foldUnder, inStepPhase_of hp, hr, readReg_val, hc, readReg_undef]
  · change execRdigest s = _
    rw [execRdigest, hp, hr, readReg_undef]
    rfl
  · change execAbsorb n d s = _
    rw [execAbsorb_of_accumulating ((chunkOk_iff n d).2 ⟨hn, hd⟩) hp, hc, readReg_undef]
  · change execAbsorb n d s = _
    rw [execAbsorb_of_accumulating ((chunkOk_iff n d).2 ⟨hn, hd⟩) hp, hc, readReg_val, if_neg (Nat.not_lt.2 hm), ha,
      readReg_undef]

theorem busy_iff (s : State) : busy s = true ↔ s.phase = .scattering ∨ s.phase = .combining ∨ s.phase = .folding := by
  simp [busy, or_assoc]

/-- Of the five status outputs exactly one holds: the phases they decode are seven and each belongs to one output (R34). -/
theorem statusOutputs_one (s : State) : ((statusOutputs s).filter id).length = 1 := by
  cases hp : s.phase <;> simp [statusOutputs, idle, readyForChunk, busy, digestDone, isAborted, hp]

/-- Settles O45: each output compares the phase with its own, and exactly one of the five agrees. -/
theorem exactlyOneStatusOutput : Obligations.ExactlyOneStatusOutput := fun s =>
  ⟨beq_iff_eq, beq_iff_eq, busy_iff s, beq_iff_eq, beq_iff_eq, statusOutputs_one s⟩

end Sys2Proof.Machine
end

