-- ==== Sys2Proof/Proofs/Memory.lean ====
section
/-! Proofs for spec/20_memory.md: a step performs the command whose bytes stand at the port (R61), and the order of full
chunks does not matter (R62). -/

namespace Sys2Proof.Machine

/-! ## A whole command at the port -/

/-- Format CA: a chunk sent as its length and its bytes is read back, whatever follows (R81, R87). -/
theorem decodeChunk_of_chunkOk {n : Nat} {d : List Byte} (rest : List Byte) (hk : chunkOk n d = true) :
    decodeChunk (BitVec.ofNat 8 n :: (d ++ rest)) = .command (.absorb n d) rest := by
  obtain ⟨hn, rfl⟩ := (chunkOk_iff n d).1 hk
  have hb : (BitVec.ofNat 8 d.length).toNat = d.length := by
    rw [BitVec.toNat_ofNat]
    omega
  obtain ⟨h, -⟩ | ⟨-, h, -⟩ | ⟨-, -, h⟩ := decodeChunk_cons (BitVec.ofNat 8 d.length) (d ++ rest)
  · omega
  · rw [hb, List.length_append] at h
    omega
  · rw [h, hb, List.take_left, List.drop_left]

/-- The port reads a well-formed host command back from its own bytes, whatever follows (R81, R82, R87). -/
theorem decodePort_encode {i : Instr} (rest : List Byte) (hw : i.wellFormed = true) (hi : opClass i = .hostCommand) :
    decodePort (encode i ++ rest) = .command i rest := by
  cases i <;> simp only [opClass, reduceCtorEq] at hi
  case absorb n d => exact decodeChunk_of_chunkOk rest hw
  all_goals rfl

/-- A command read whole from the port is what the step performs, on the state with its bytes consumed (R61, R92). -/
theorem step_of_decodePort_command {s : State} {i : Instr} {rest : List Byte} (hd : decodePort s.port = .command i rest) :
    step s = exec i (s.setPort rest) := by
  simp [step, nextTurn, hd]

/-- Settles O31: the port reads the command back from its bytes, and a command read whole is performed. -/
theorem stepPerformsPortCommand : Obligations.StepPerformsPortCommand := by
  intro s i rest hw hi hp
  exact step_of_decodePort_command (hp ▸ decodePort_encode rest hw hi)

/-! ## Full chunks in any order -/

/-- Two accumulators with the same 160 bytes are the same (R21). -/
theorem accBuffer_ext {a b : AccBuffer} (h : ∀ i : Fin 160, a[i] = b[i]) : a = b :=
  Vector.ext fun i hi => h ⟨i, hi⟩

/-- Two chunks XORed into the accumulator in either order (R62, R139). -/
theorem absorbBytes_right_comm (a : AccBuffer) (d e : List Byte) :
    absorbBytes (absorbBytes a d) e = absorbBytes (absorbBytes a e) d := by
  refine accBuffer_ext fun i => ?_
  rw [absorbBytes_get, absorbBytes_get, absorbBytes_get, absorbBytes_get, BitVec.xor_assoc, BitVec.xor_assoc,
    BitVec.xor_comm (chunkByte d i)]

/-- The accumulator after a list of chunks does not depend on their order (R62). -/
theorem foldl_absorbBytes_perm {l m : List (List Byte)} (h : l.Perm m) (a : AccBuffer) :
    l.foldl absorbBytes a = m.foldl absorbBytes a :=
  h.foldl_eq' (fun d _ e _ b => absorbBytes_right_comm b d e) a

/-- The state after the full chunks `l`, absorbed in `Accumulating` from accumulator `a` and counter `c`: each is folded in,
counted and answered, and Accumulation goes on (R131, R132). -/
def afterFullChunks (l : List (List Byte)) (a : AccBuffer) (c : Count) (s : State) : State :=
  { s with
    acc := .val (l.foldl absorbBytes a)
    cnt := .val (c + BitVec.ofNat 64 (160 * l.length))
    responses := s.responses ++ List.replicate l.length (okResponse []) }

theorem afterFullChunks_nil {s : State} {a : AccBuffer} {c : Count} (ha : s.acc = .val a) (hc : s.cnt = .val c) :
    afterFullChunks [] a c s = s := by
  simp [afterFullChunks, ← ha, ← hc]

theorem afterFullChunks_cons {s : State} (d : List Byte) (l : List (List Byte)) (a : AccBuffer) (c : Count)
    (hp : s.phase = .accumulating) :
    afterFullChunks (d :: l) a c s = afterFullChunks l (absorbBytes a d) (c + BitVec.ofNat 64 160)
      ((absorbChunk 160 d a c s).respond (okResponse [])) := by
  have hcount : c + BitVec.ofNat 64 (160 * (l.length + 1)) =
      c + BitVec.ofNat 64 160 + BitVec.ofNat 64 (160 * l.length) := by
    rw [BitVec.add_assoc, ← BitVec.ofNat_add, Nat.mul_succ, Nat.add_comm]
  simp [afterFullChunks, absorbChunk, State.setPhase, State.setCnt, State.setAcc, State.respond, hcount, hp,
    List.replicate_succ]

theorem afterFullChunks_perm {l m : List (List Byte)} (h : l.Perm m) (a : AccBuffer) (c : Count) (s : State) :
    afterFullChunks l a c s = afterFullChunks m a c s := by
  rw [afterFullChunks, afterFullChunks, foldl_absorbBytes_perm h, h.length_eq]

/-- Full chunks that the counter can take are all accepted in `Accumulating` (R131, R132). -/
theorem execAll_fullChunks {l : List (List Byte)} {s : State} {a : AccBuffer} {c : Count} (hl : ∀ d ∈ l, d.length = 160)
    (hp : s.phase = .accumulating) (ha : s.acc = .val a) (hc : s.cnt = .val c)
    (hm : c.toNat + 160 * l.length ≤ 2 ^ 64 - 1) :
    execAll (l.map (.absorb 160)) s = .next (afterFullChunks l a c s) := by
  induction l generalizing s a c with
  | nil => rw [afterFullChunks_nil ha hc]; rfl
  | cons d l ih =>
    obtain ⟨hd, hl⟩ := List.forall_mem_cons.1 hl
    rw [List.length_cons] at hm
    have hb : (c + BitVec.ofNat 64 160).toNat = c.toNat + 160 := by
      rw [BitVec.toNat_add, BitVec.toNat_ofNat]
      omega
    have he : exec (.absorb 160 d) s = .next ((absorbChunk 160 d a c s).respond (okResponse [])) :=
      execAbsorb_accepted le_rfl hd hp ha hc (by omega)
    rw [List.map_cons, execAll_cons he, afterFullChunks_cons d l a c hp]
    exact ih hl rfl rfl rfl (by omega)

/-- Settles O58: the chunks in either order lead to `afterFullChunks`, which does not see their order. -/
theorem fullChunksCommute : Obligations.FullChunksCommute := by
  intro l m s a c h hl hp ha hc hm
  refine ⟨afterFullChunks l a c s, execAll_fullChunks hl hp ha hc hm, ?_, hp⟩
  rw [afterFullChunks_perm h]
  exact execAll_fullChunks (fun d hd => hl d (h.mem_iff.2 hd)) hp ha hc (h.length_eq ▸ hm)

end Sys2Proof.Machine
end

