-- ==== Sys2Proof/Proofs/Encoding.lean ====
section
/-! Proofs for spec/30_encoding.md: decoding is total and undoes encoding, on the command port (R92) and in a trace (R82);
words written out (R81, R86); what a word of the opcode table and the outside events make the next step do; and the response
of a host command (R84). -/

namespace Sys2Proof.Machine

/-! ## The command port -/

/-- Settles O30: by the first byte and, after ABSORB's code, by the length byte and the number of bytes after it. -/
theorem portReadIsTotal : Obligations.PortReadIsTotal := by
  intro bs
  cases bs with
  | nil => exact .inr (.inr (.inr ⟨rfl, .inl rfl⟩))
  | cons b rest =>
    obtain ⟨rfl, h⟩ | ⟨rfl, h⟩ | ⟨rfl, h⟩ | ⟨rfl, h⟩ | ⟨rfl, h⟩ | ⟨h1, h2, h3, h4, h5, h⟩ := decodePort_cons b rest
    · exact .inl ⟨.init, rest, h, .inl ⟨by simp, rfl⟩⟩
    · rw [h]
      cases rest with
      | nil => exact .inr (.inr (.inr ⟨rfl, .inr (.inl rfl)⟩))
      | cons n d =>
        obtain ⟨hn, h⟩ | ⟨hn, hd, h⟩ | ⟨hn, hd, h⟩ := decodeChunk_cons n d
        · exact .inr (.inr (.inl ⟨n, d, h, rfl, hn⟩))
        · exact .inr (.inr (.inr ⟨h, .inr (.inr ⟨n, d, rfl, hn, hd⟩)⟩))
        · exact .inl ⟨_, _, h, .inr ⟨n, d.take n.toNat, rfl, hn, List.length_take_of_le hd, by rw [List.take_append_drop]⟩⟩
    · exact .inl ⟨.abort, rest, h, .inl ⟨by simp, rfl⟩⟩
    · exact .inl ⟨.status, rest, h, .inl ⟨by simp, rfl⟩⟩
    · exact .inl ⟨.rdigest, rest, h, .inl ⟨by simp, rfl⟩⟩
    · exact .inr (.inl ⟨b, rest, h, rfl, h1, h2, h3, h4, h5⟩)

/-- A command read from the port is well formed, and the bytes read are its encoding (R81, R92). -/
theorem wellFormed_and_eq_encode_of_decodePort {bs rest : List Byte} {i : Instr} (h : decodePort bs = .command i rest) :
    i.wellFormed = true ∧ bs = encode i ++ rest := by
  obtain ⟨j, r, hj, hbs⟩ | ⟨b, r, hr, -⟩ | ⟨n, r, hr, -⟩ | ⟨hr, -⟩ := portReadIsTotal bs
  · obtain ⟨rfl, rfl⟩ : i = j ∧ rest = r := by simpa [h] using hj
    obtain ⟨hi, rfl⟩ | ⟨n, d, rfl, hn, hd, rfl⟩ := hbs
    · simp only [List.mem_cons, List.not_mem_nil, or_false] at hi
      obtain rfl | rfl | rfl | rfl := hi <;> exact ⟨rfl, rfl⟩
    · exact ⟨(chunkOk_iff _ _).2 ⟨hn, hd⟩, by simp [encode, opcode, operandBytes]⟩
  all_goals simp [h] at hr

/-- Settles O27: `decodePort_encode`. -/
theorem portReadsEncodedCommand : Obligations.PortReadsEncodedCommand := fun _ rest => decodePort_encode rest

/-- Settles O29: a command read is well formed with its own bytes, and no other class is ever read. -/
theorem portReadsNothingElse : Obligations.PortReadsNothingElse := by
  intro bs rest i h
  obtain ⟨hw, hbs⟩ := wellFormed_and_eq_encode_of_decodePort h
  exact ⟨hw, decodePort_command_class h, hbs⟩

/-! ## The trace form -/

/-- A trace names a host command by the bytes of the port (R82). -/
theorem decodeTrace_of_decodePort {bs rest : List Byte} {i : Instr} (h : decodePort bs = .command i rest) :
    decodeTrace bs = some (i, rest) := by
  obtain ⟨-, rfl⟩ := wellFormed_and_eq_encode_of_decodePort h
  have hi := decodePort_command_class h
  cases i <;> simp only [opClass, reduceCtorEq] at hi
  case absorb n d =>
    simp only [encode, opcode, List.cons_append, BitVec.ofNat_eq_ofNat] at h
    simp [encode, opcode, decodeTrace, h]
  all_goals rfl

/-- A datapath function's arguments are read back from their bytes, whatever follows (log 9). -/
theorem decodeTrace_encode_datapath {i : Instr} (rest : List Byte) (hw : i.wellFormed = true) (hi : opClass i = .datapath) :
    decodeTrace (encode i ++ rest) = some (i, rest) := by
  cases i <;> simp only [opClass, reduceCtorEq] at hi
  case zero => rfl
  case xor a b => simp [encode, opcode, operandBytes, decodeTrace, takeOperand_toBytes]
  case rotl b n =>
    have hn : n < 160 := by simpa [Instr.wellFormed] using hw
    simp [encode, opcode, operandBytes, decodeTrace, takeOperand_toBytes, takeOperand_byte, hn,
      Nat.mod_eq_of_lt (show n < 256 by omega)]
  case brev b => simp [encode, opcode, operandBytes, decodeTrace, takeOperand_toBytes]
  case ext8 x => simp [encode, opcode, operandBytes, decodeTrace, takeOperand_byte]
  case ext64 l => simp [encode, opcode, operandBytes, decodeTrace, takeOperand_toBytes]

/-- Settles O28: by the class; a host command as on the port, an engine step by its identifier, a datapath function with its
arguments. -/
theorem traceReadsEncodedOperation : Obligations.TraceReadsEncodedOperation := by
  intro i rest hw
  cases hi : opClass i with
  | hostCommand => exact decodeTrace_of_decodePort (decodePort_encode rest hw hi)
  | engineStep => cases i <;> simp only [opClass, reduceCtorEq] at hi <;> rfl
  | datapath => exact decodeTrace_encode_datapath rest hw hi

/-- A host command is named in a trace only by the bytes of the port (R82). -/
theorem decodePort_of_decodeTrace {bs rest : List Byte} {i : Instr} (h : decodeTrace bs = some (i, rest))
    (hi : opClass i = .hostCommand) : decodePort bs = .command i rest := by
  cases bs with
  | nil => cases h
  | cons b bs =>
    simp only [decodeTrace] at h
    split at h
    case h_1 | h_2 | h_3 | h_4 => cases h; cases hi
    case h_5 =>  -- XOR
      split at h
      · cases h
      · obtain ⟨y, -, hy⟩ := Option.map_eq_some_iff.1 h
        cases hy; cases hi
    case h_6 =>  -- ROTL
      split at h
      · cases h
      · split at h
        · cases h
        · split at h
          · cases h; cases hi
          · cases h
    case h_7 | h_8 | h_9 =>  -- one operand
      obtain ⟨y, -, hy⟩ := Option.map_eq_some_iff.1 h
      cases hy; cases hi
    case h_10 =>  -- as on the port
      split at h
      · next hp => cases h; exact hp
      · cases h
      · cases h

/-! ## One step: a word of the opcode table -/

/-- With no whole command at the port a step takes the next event, or the engine's own turn (log 6). -/
theorem nextTurn_of_incomplete {s : State} (hd : decodePort s.port = .incomplete) : nextTurn s = inputTurn s := by
  simp [nextTurn, hd]

/-- The phase that `selectStep` selects enables the engine step it is selected for (log 10). -/
theorem engineStepOf_selectStep {i : Instr} (s : State) (hi : opClass i = .engineStep) :
    engineStepOf (selectStep i s).phase = some i := by
  cases i <;> simp only [opClass, reduceCtorEq] at hi <;> rfl

theorem selectStep_input (i : Instr) (s : State) : (selectStep i s).input = s.input := by
  cases i <;> rfl

/-- With no whole command at the port, a datapath function that is to be evaluated is performed (log 8). -/
theorem step_of_evaluate_event {s : State} {i : Instr} {rest : List Input} (hd : decodePort s.port = .incomplete)
    (hi : opClass i = .datapath) (hin : s.input = .evaluate i :: rest) : step s = exec i { s with input := rest } := by
  simp [step, nextTurn_of_incomplete hd, inputTurn, hin, evaluateTurn, hi, State.setInput]

/-- A well-formed host command placed at the front of the port is what the next step runs, on the state itself. -/
theorem step_placeOperation_hostCommand {i : Instr} (s : State) (hw : i.wellFormed = true)
    (hi : opClass i = .hostCommand) : step (placeOperation i s) = exec i s := by
  have hp : placeOperation i s = s.setPort (encode i ++ s.port) := by simp [placeOperation, hi]
  rw [hp]
  exact step_of_decodePort_command (decodePort_encode s.port hw hi)

/-- An engine step, placed, is what the engine takes on its turn in the phase selected for it. -/
theorem step_placeOperation_engineStep {i : Instr} (s : State) (hi : opClass i = .engineStep) :
    step (placeOperation i s) = exec i { selectStep i s with port := [] } := by
  have hp : placeOperation i s = ((selectStep i s).setPort []).setInput (.engine :: s.input) := by
    simp [placeOperation, hi]
  rw [hp, ← selectStep_input i s]
  exact step_of_engine_event rfl (engineStepOf_selectStep s hi) rfl

/-- A datapath function, placed, is what the next step evaluates. -/
theorem step_placeOperation_datapath {i : Instr} (s : State) (hi : opClass i = .datapath) :
    step (placeOperation i s) = exec i { s with port := [] } := by
  have hp : placeOperation i s = (s.setPort []).setInput (.evaluate i :: s.input) := by simp [placeOperation, hi]
  rw [hp]
  exact step_of_evaluate_event rfl hi rfl

/-- A table word that is read is placed as the operation it names (log 10). -/
theorem withFetchWord_of_decode {s : State} {nbits w : Nat} {i : Instr} (h : decodeTableWord nbits w = some i) :
    s.withFetchWord nbits w = placeOperation i s := by
  simp [State.withFetchWord, h]

/-- A host command read from a table word is well formed: the word's bytes are those of the port. -/
theorem decodeTableWord_wellFormed {nbits w : Nat} {i : Instr} (h : decodeTableWord nbits w = some i)
    (hi : opClass i = .hostCommand) : i.wellFormed = true := by
  obtain ⟨⟨_, rest⟩, ht, rfl⟩ := Option.map_eq_some_iff.1 h
  exact (wellFormed_and_eq_encode_of_decodePort (decodePort_of_decodeTrace ht hi)).1

/-- Settles O35: the word is placed as its operation, by class. -/
theorem tableWordRunsNext : Obligations.TableWordRunsNext := by
  intro s nbits w i h
  rw [withFetchWord_of_decode h]
  exact ⟨fun hi => step_placeOperation_hostCommand s (decodeTableWord_wellFormed h hi) hi,
    fun hi => ⟨step_placeOperation_engineStep s hi, engineStepOf_selectStep s hi⟩,
    step_placeOperation_datapath s⟩

/-! ## One step: the outside events -/

section
variable {s : State} {rest : List Input} (hd : decodePort s.port = .incomplete)
include hd

/-- Bytes that arrive join those that wait at the port (R92). -/
theorem step_of_bytes_event {bs : List Byte} (hin : s.input = .bytes bs :: rest) :
    step s = .next { s with input := rest, port := s.port ++ bs } := by
  simp [step, nextTurn_of_incomplete hd, inputTurn, hin, State.setInput, State.setPort]

/-- A transaction-level host command is performed (R81). -/
theorem step_of_command_event {i : Instr} (hi : opClass i = .hostCommand) (hin : s.input = .command i :: rest) :
    step s = exec i { s with input := rest } := by
  simp [step, nextTurn_of_incomplete hd, inputTurn, hin, commandTurn, hi, State.setInput]

/-- A transaction that names no host command is rejected (R86; log 18). -/
theorem step_of_foreign_command_event {i : Instr} (hi : opClass i ≠ .hostCommand)
    (hin : s.input = .command i :: rest) :
    step s = .next { s with input := rest, responses := s.responses ++ [errorResponse .eOpcode] } := by
  cases hc : opClass i with
  | hostCommand => exact absurd hc hi
  | engineStep | datapath =>
    simp only [step, nextTurn_of_incomplete hd, inputTurn, hin, commandTurn, hc]
    rfl

/-- Reset has R260's effect, drops the bytes of an unfinished command and keeps what was sent (log 14). -/
theorem step_of_reset_event (hin : s.input = .reset :: rest) : step s = .next { s with
    phase := .start, acc := .undef, cnt := .undef, blk := .undef, res := .undef, port := [], input := rest } := by
  rw [step, nextTurn_of_incomplete hd, inputTurn, hin]
  rfl

end

theorem engineStepOf_of_not_busy {s : State} (hb : busy s = false) : engineStepOf s.phase = none := by
  cases hp : s.phase <;> simp_all [busy, engineStepOf]

/-- Outside the busy phases the engine's turn leaves the state as it is (R10, R246). -/
theorem engineTurn_of_not_busy {s : State} (hb : busy s = false) : engineTurn s = .settled (.next s) := by
  simp [engineTurn, engineStepOf_of_not_busy hb]

/-- Settles O33: each event by what its turn is. -/
theorem stepTakesOutsideEvents : Obligations.StepTakesOutsideEvents := by
  intro s hd
  refine ⟨fun bs rest => step_of_bytes_event hd, fun i rest hin hi => step_of_command_event hd hi hin,
    fun i rest hin hi => step_of_foreign_command_event hd hi hin,
    fun i rest hin hi => step_of_evaluate_event hd hi hin, fun rest => step_of_reset_event hd,
    fun hb hin => ?_, fun rest hb hin => ?_⟩
  · simp [step, nextTurn_of_incomplete hd, inputTurn, hin, engineTurn_of_not_busy hb]
  · have hb' : busy (s.setInput rest) = false := hb
    simp only [step, nextTurn_of_incomplete hd, inputTurn, hin, engineTurn_of_not_busy hb']
    rfl

/-! ## Responses -/

/-- Settles O46: each host command's answers, performed or rejected, and the response of each. -/
theorem everyHostCommandSendsOneResponse : Obligations.EveryHostCommandSendsOneResponse := by
  intro i s t hi h
  cases i <;> simp only [opClass, reduceCtorEq] at hi
  case init =>
    obtain ⟨-, rfl⟩ | ⟨-, rfl⟩ := execInit_cases h <;> exact ⟨_, rfl, rfl, by simp [State.registers]⟩
  case absorb n d =>
    obtain ⟨e, rfl⟩ | ⟨-, -, a, c, -, -, rfl⟩ := execAbsorb_cases h <;> exact ⟨_, rfl, rfl, by simp [State.registers]⟩
  case abort =>
    obtain ⟨-, rfl⟩ | ⟨-, rfl⟩ := execAbort_cases h <;> exact ⟨_, rfl, rfl, by simp [State.registers]⟩
  case status => cases h; exact ⟨_, rfl, rfl, by simp⟩
  case rdigest =>
    obtain ⟨-, d, hd, rfl⟩ | ⟨-, rfl⟩ := execRdigest_cases h
    · exact ⟨_, rfl, rfl, by simp [hd, toBytes_eq_ofFn]⟩
    · exact ⟨_, rfl, rfl, by simp [State.registers]⟩

/-! ## Words written out -/

/-- A table word whose bytes begin with a well-formed operation's own names that operation. -/
theorem decodeTableWord_of_tableBytes {nbits w : Nat} {i : Instr} (rest : List Byte) (hw : i.wellFormed = true)
    (h : tableBytes nbits w = encode i ++ rest) : decodeTableWord nbits w = some i := by
  rw [decodeTableWord, h, traceReadsEncodedOperation i rest hw, Option.map_some]

/-- Settles O26: the port's decoder is evaluated on the words; each table word has the bytes of its operation, with zero
bytes after them. -/
theorem specWordsDecode : Obligations.SpecWordsDecode := by
  have zeros {nbits w i} := @decodeTableWord_of_tableBytes nbits w i (List.replicate 162 0)
  exact ⟨rfl, rfl, rfl, rfl, rfl, rfl, rfl, rfl, rfl, rfl, zeros rfl rfl, zeros rfl rfl, zeros rfl rfl, zeros rfl rfl,
    decodeTableWord_of_tableBytes (List.replicate 122 0) rfl (by decide), zeros rfl rfl⟩

end Sys2Proof.Machine
end

