-- ==== Sys2Proof/Proofs/BlockPrimitives.lean ====
section
/-! Proofs for spec/40_block_primitives.md: what each datapath function returns (R110 to R115), the byte-array form of ROTL
(R118) and the laws of R116. Each fact about a returned Block is read off bit by bit or byte by byte from Laws/Block. -/

namespace Sys2Proof.Machine

/-! ## ROTL -/

/-- A count below 160 is performed: one Block returned, nothing else done (R112; log 8). -/
theorem execRotl_of_lt (b : Block) {n : Nat} (hn : n < 160) (s : State) :
    execRotl b n s = .next (s.emit (rotl b ⟨n, hn⟩)) := dif_pos hn

/-- A count of 160 or more is refused and not reduced (R112, U3). -/
theorem execRotl_of_ge (b : Block) {n : Nat} (hn : 160 ≤ n) (s : State) :
    execRotl b n s = .refused (.rotateCountOutOfDomain n) := dif_neg (by omega)

/-- The value of a rotation, by R112's formula. -/
theorem toNat_rotl_of_ne_zero (b : Block) {n : Fin 160} (hn : n ≠ 0) :
    (rotl b n).toNat = ((b.toNat <<< n.val) % 2 ^ 160) ||| (b.toNat >>> (160 - n.val)) := by
  rw [rotl, if_neg hn, BitVec.toNat_or, BitVec.toNat_shiftLeft, BitVec.toNat_ushiftRight]

/-- The bit at position `t` moves to position `(t + n) mod 160` (R112). -/
theorem getLsbD_rotl_moved (b : Block) (n : Fin 160) {t : Nat} (ht : t < 160) :
    (rotl b n).getLsbD ((t + n.val) % 160) = b.getLsbD t := by
  rw [getLsbD_rotl _ _ _ (Nat.mod_lt _ (by decide))]
  congr 1
  omega

/-- Settles O17: the count decides between a rotation and a refusal; the rotation by its value and by its bits. -/
theorem rotlRotatesWholeBlock : Obligations.RotlRotatesWholeBlock := by
  refine ⟨fun s b n hn => ⟨rotl b ⟨n, hn⟩, execRotl_of_lt b hn s, ?_, ?_, fun t => getLsbD_rotl_moved b ⟨n, hn⟩⟩,
    fun s b n hn => execRotl_of_ge b hn s⟩
  · rintro rfl
    exact rotl_zero b
  · intro h
    exact toNat_rotl_of_ne_zero b (Fin.ne_of_val_ne (Nat.ne_of_gt h))

/-- Below 8, a byte's bit is the Block's bit at its place (R26). -/
theorem getLsbD_byteAt_of_lt (x : Block) (j : Fin 20) {c : Nat} (hc : c < 8) :
    (byteAt x j).getLsbD c = x.getLsbD (8 * j.val + c) := by
  rw [getLsbD_byteAt, decide_eq_true hc, Bool.true_and]

/-- Bit `c` of byte `j` of a rotation, with `r = n mod 8`: below `r` a high bit of the lower byte `v`, from `r` on a low bit of
the byte `u` (R118). -/
theorem getLsbD_byteAt_rotl (b : Block) (n : Fin 160) (j u v : Fin 20) (hu : u.val = (j.val + 20 - n.val / 8) % 20)
    (hv : v.val = (j.val + 40 - n.val / 8 - 1) % 20) {c : Nat} (hc : c < 8) :
    (byteAt (rotl b n) j).getLsbD c =
      if c < n.val % 8 then (byteAt b v).getLsbD (8 - n.val % 8 + c) else (byteAt b u).getLsbD (c - n.val % 8) := by
  rw [getLsbD_byteAt_of_lt _ _ hc, getLsbD_rotl _ _ _ (by omega)]
  split <;>
  · rw [getLsbD_byteAt_of_lt _ _ (by omega)]
    congr 1
    omega

/-- Settles O18: bit by bit; with `r = 0` every bit of the byte comes from one byte, else the low `r` bits come from the
byte below it. -/
theorem rotlByteArrayForm : Obligations.RotlByteArrayForm := by
  intro b n j u v hu hv
  have bits {c : Nat} (hc : c < 8) := getLsbD_byteAt_rotl b n j u v hu hv hc
  refine ⟨fun hr => BitVec.eq_of_getLsbD_eq fun c hc => ?_, fun _ => BitVec.eq_of_getLsbD_eq fun c hc => ?_⟩
  · rw [bits hc, hr, if_neg (Nat.not_lt_zero c), Nat.sub_zero]
  · rw [bits hc, BitVec.getLsbD_or, BitVec.getLsbD_shiftLeft, BitVec.getLsbD_ushiftRight]
    by_cases hlow : c < n.val % 8
    · simp [hlow]
    · have hout : (byteAt b v).getLsbD (8 - n.val % 8 + c) = false := BitVec.getLsbD_of_ge _ _ (by omega)
      simp [hlow, hc, hout]

/-! ## EXT64 -/

/-- Byte `j` of a value, as its quotient by the byte's weight (R53). -/
theorem byteOf_eq_ofNat_div {w : Nat} (v : BitVec w) (j : Nat) : byteOf v j = BitVec.ofNat 8 (v.toNat / 2 ^ (8 * j)) := by
  rw [← Nat.shiftRight_eq_div_pow]
  rfl

/-- The twelve bytes above the counter's are zero under either order (R115). -/
theorem byteAt_ext64_high (order : Config.LenOrder) (l : Count) {j : Fin 20} (hj : 8 ≤ j.val) :
    byteAt (ext64 order l) j = 0 := by
  simp [ext64, Nat.not_lt.2 hj]

theorem byteOf_zero (w j : Nat) : byteOf (0 : BitVec w) j = 0 := BitVec.extractLsb'_zero

/-- `EXT64(0) = ZERO()` under either order (R115). -/
theorem ext64_zero (order : Config.LenOrder) : ext64 order 0 = zeroBlock := by
  apply block_ext
  intro j
  cases order
  · rw [byteAt_ext64_value, byteOf_zero, ite_self, byteAt_zeroBlock]
  · rw [byteAt_ext64_swapped, byteOf_zero, ite_self, byteAt_zeroBlock]

/-- Under `value` the Block's value is the counter (R115). -/
theorem toNat_ext64_value (l : Count) : (ext64 .value l).toNat = l.toNat := by
  rw [ext64_value_eq, BitVec.toNat_setWidth_of_le (by decide)]

/-- Settles O19: the order in force is `value`; the bytes under each order, and the value. -/
theorem ext64PlacesCounter : Obligations.Ext64PlacesCounter := by
  refine ⟨fun _ _ => rfl, fun l => ⟨fun j hj => ?_, fun j hj => ?_, fun order j => byteAt_ext64_high order l,
    toNat_ext64_value l, ext64_zero⟩⟩
  · rw [byteAt_ext64_value, if_pos hj, byteOf_eq_ofNat_div]
  · rw [byteAt_ext64_swapped, if_pos hj, byteOf_eq_ofNat_div]

/-! ## The laws of R116 -/

/-- Two rotations whose counts are together a multiple of 160 undo each other (R116 law 4). -/
theorem rotl_rotl_of_add_eq_zero (b : Block) {m n : Fin 160} (h : m + n = 0) : rotl (rotl b m) n = b := by
  rw [rotl_rotl, h, rotl_zero]

theorem rotl_bijective (n : Fin 160) : Function.Bijective (rotl · n) :=
  Function.bijective_iff_has_inverse.2
    ⟨(rotl · (-n)), fun b => rotl_rotl_of_add_eq_zero b (add_neg_cancel n),
      fun b => rotl_rotl_of_add_eq_zero b (neg_add_cancel n)⟩

/-- The number of set bits, counted over the bit positions as a finite type. -/
theorem setBits_eq_countP (b : Block) : setBits b = (List.finRange 160).countP fun t => b.getLsbD t.val := by
  rw [setBits, ← List.countP_eq_length_filter, ← List.map_coe_finRange_eq_range, List.countP_map]
  rfl

/-- A Block whose bits are another's, each position taken once, has as many set bits. -/
theorem setBits_eq_of_perm {a b : Block} (e : Equiv.Perm (Fin 160))
    (h : ∀ t : Fin 160, a.getLsbD t.val = b.getLsbD (e t).val) : setBits a = setBits b :=
  calc setBits a = (List.finRange 160).countP fun t => b.getLsbD (e t).val := by simp only [setBits_eq_countP, h]
    _ = ((List.finRange 160).map e).countP fun t => b.getLsbD t.val := by rw [List.countP_map]; rfl
    _ = setBits b := by rw [(Equiv.Perm.map_finRange_perm e).countP_eq, setBits_eq_countP]

theorem setBits_rotl (b : Block) (n : Fin 160) : setBits (rotl b n) = setBits b := by
  refine setBits_eq_of_perm (Equiv.subRight n) fun t => ?_
  rw [getLsbD_rotl _ _ _ t.isLt, Equiv.subRight_apply, Fin.val_sub, Nat.add_comm]

/-- The bit position that byte reversal exchanges with `t`: the same bit of byte `19 - t div 8` (R113). -/
def brevBit (t : Fin 160) : Fin 160 := ⟨8 * (19 - t.val / 8) + t.val % 8, by omega⟩

theorem brevBit_involutive : Function.Involutive brevBit := by
  intro t
  apply Fin.ext
  simp only [brevBit]
  omega

theorem setBits_brev (b : Block) : setBits (brev b) = setBits b :=
  setBits_eq_of_perm brevBit_involutive.toPerm fun t => getLsbD_brev b t.val t.isLt

/-- A byte at index `o` and zeros elsewhere is that byte rotated by `o` whole bytes (R116 law 8). -/
theorem blockOf_single (x : Byte) (o : Fin 20) :
    (blockOf fun j => if j = o then x else 0) = rotl (ext8 x) ⟨8 * o.val, by omega⟩ :=
  block_ext fun j => by rw [byteAt_blockOf, byteAt_rotl_ext8]

/-- R116 law 6: of the Block whose only set bit is bit 0, ROTL by 8 and then BREV puts that bit at the foot of byte 18, BREV
and then ROTL by 8 does not. -/
theorem brev_rotl_ne_rotl_brev : brev (rotl (ext8 1) 8) ≠ rotl (brev (ext8 1)) 8 := by
  intro h
  have hl : (brev (rotl (ext8 1) 8)).getLsbD 144 = true := by
    rw [getLsbD_brev _ _ (by decide), getLsbD_rotl _ _ _ (by decide), getLsbD_ext8 _ _ (by decide)]
    decide
  have hr : (rotl (brev (ext8 1)) 8).getLsbD 144 = false := by
    rw [getLsbD_rotl _ _ _ (by decide), getLsbD_brev _ _ (by decide), getLsbD_ext8 _ _ (by decide)]
    decide
  rw [h, hr] at hl
  cases hl

/-- Settles O20: laws 1, 2 and 5 stand in Laws/Block; laws 3, 4 and 8 are `rotl_rotl`; law 7 is a permutation of the bit
positions. -/
theorem datapathLaws : Obligations.DatapathLaws := by
  refine ⟨⟨xorBlock_comm, xorBlock_assoc, xorBlock_zero, xorBlock_self⟩, rotl_xorBlock, ?compose, ?inverse,
    ⟨brev_xorBlock, brev_brev⟩, ⟨ext8 1, 8, brev_rotl_ne_rotl_brev⟩, ⟨setBits_rotl, setBits_brev⟩, ?single⟩
  case compose =>
    intro b m n k h
    rw [rotl_rotl, Fin.ext (h.trans (Fin.val_add m n).symm)]
  case inverse =>
    intro n k h
    have hk : n + k = 0 := Fin.ext (by rw [Fin.val_add, h]; simp only [Fin.val_zero]; omega)
    exact ⟨rotl_bijective n, fun b => rotl_rotl_of_add_eq_zero b hk,
      fun b => rotl_rotl_of_add_eq_zero b ((add_comm k n).trans hk)⟩
  case single =>
    intro x o k n m hn hm
    rw [blockOf_single, rotl_rotl]
    congr 1
    apply Fin.ext
    rw [Fin.val_add, hn, hm]
    simp only
    omega

/-! ## ZERO, XOR, BREV and EXT8 -/

/-- Settles O15: ZERO and XOR each return their Block, of which Laws/Block says the rest. -/
theorem zeroAndXorReturnBlocks : Obligations.ZeroAndXorReturnBlocks := by
  refine ⟨fun s => ⟨zeroBlock, rfl, rfl, byteAt_zeroBlock, xorBlock_zero, rotl_zeroBlock, brev_zeroBlock⟩,
    fun s a b => ⟨xorBlock a b, rfl, byteAt_xorBlock a b, BitVec.toNat_xor a b, ?_⟩⟩
  rintro rfl
  exact xorBlock_self a

/-- EXT8's Block is the zero-extension of the byte (R114). -/
theorem ext8_eq_setWidth (x : Byte) : ext8 x = x.setWidth 160 := by
  apply block_eq_of_bits
  intro t ht
  rw [getLsbD_ext8 x t ht, BitVec.getLsbD_setWidth, decide_eq_true ht, Bool.true_and]

/-- Settles O16: BREV and EXT8 each return their Block, by its bytes and EXT8's by its value. -/
theorem brevAndExt8ReturnBlocks : Obligations.BrevAndExt8ReturnBlocks := by
  refine ⟨fun s b => ⟨brev b, rfl, fun j => ?_, brev_brev b⟩,
    fun s x => ⟨ext8 x, rfl, by rw [byteAt_ext8, if_pos rfl], fun j hj => ?_, ?_⟩⟩
  · rw [byteAt_brev, show j.rev = ⟨19 - j.val, by omega⟩ from Fin.ext (by simp only [Fin.val_rev]; omega)]
  · rw [byteAt_ext8, if_neg (Fin.pos_iff_ne_zero.1 hj)]
  · rw [ext8_eq_setWidth, BitVec.toNat_setWidth_of_le (by decide)]

end Sys2Proof.Machine
end

