-- ==== Sys2Proof/Proofs/Accumulation.lean ====
section
/-! Proofs for spec/41_accumulation.md: INIT (R130), ABSORB under either value of `OVERFLOW` (R131, R135), what INIT and
`FEED s` leave in the accumulator (R137), and the host's reader loop (R136). -/

namespace Sys2Proof.Machine

/-! ## INIT -/

/-- In a phase that accepts it INIT begins a computation (R130). -/
theorem exec_init_of_accepts {s : State} (hp : acceptsInit s.phase = true) :
    exec .init s = .next ((beginComputation s).respond (okResponse [])) := by
  change execInit s = _
  rw [execInit, hp]
  rfl

/-- In the other phases INIT is rejected with `E_PHASE` (R130, R234). -/
theorem exec_init_of_not_accepts {s : State} (hp : acceptsInit s.phase = false) :
    exec .init s = .next (s.respond (errorResponse .ePhase)) := by
  change execInit s = _
  rw [execInit, hp]
  rfl

/-- Every byte of the accumulator INIT writes is zero (R130). -/
theorem zeroAcc_get (i : Fin 160) : (Vector.replicate 160 (0 : Byte))[i] = 0 := Vector.getElem_replicate i.isLt

/-- Settles O2: the phases of its two clauses are those that accept INIT and those that do not. -/
theorem initBeginsComputation : Obligations.InitBeginsComputation := by
  refine fun s => ⟨fun hp => ⟨Vector.replicate 160 0, zeroAcc_get, ?_⟩, fun hp => exec_init_of_not_accepts ?_⟩
  · exact exec_init_of_accepts ((acceptsInit_iff s.phase).2 hp)
  · obtain h | h | h | h := hp <;> rw [h] <;> rfl

/-! ## ABSORB -/

/-- Operands that are no chunk: too long, or not as many bytes as the length says (R81, R86). -/
theorem chunkOk_eq_false_iff (n : Nat) (d : List Byte) : chunkOk n d = false ↔ 160 < n ∨ d.length ≠ n := by
  rw [← Bool.not_eq_true, chunkOk_iff, not_and_or, Nat.not_le]

theorem chunkByte_of_lt {d : List Byte} {j : Nat} (h : j < d.length) : chunkByte d j = d[j] := by
  rw [chunkByte, List.getElem?_eq_getElem h, Option.getD_some]

theorem chunkByte_of_ge {d : List Byte} {j : Nat} (h : d.length ≤ j) : chunkByte d j = 0 := by
  rw [chunkByte, List.getElem?_eq_none h, Option.getD_none]

/-- The counter grown by `n` bytes, at its 64 bits (R22). -/
theorem toNat_count_add (c : Count) (n : Nat) : (c + BitVec.ofNat 64 n).toNat = (c.toNat + n) % 2 ^ 64 := by
  rw [BitVec.toNat_add, BitVec.toNat_ofNat, Nat.add_mod_mod]

/-- A chunk in `Accumulating` past the counter's end: `E_OVERFLOW`, whatever ACC holds (R131; log 16). -/
theorem execAbsorb_of_overflow {n : Nat} {d : List Byte} {s : State} {c : Count} (hk : chunkOk n d = true)
    (hp : s.phase = .accumulating) (hc : s.cnt = .val c) (ho : 2 ^ 64 - 1 < c.toNat + n) :
    execAbsorb n d s = .next (s.respond (errorResponse .eOverflow)) :=
  execAbsorb_next.2 (.inr (.inr ⟨hk, hp, c, hc, .inl ⟨ho, rfl⟩⟩))

/-- Settles O3: one lemma per answer of ABSORB, the accepted chunk with `absorbBytes` and the counter's sum
written out. -/
theorem absorbFoldsChunk : Obligations.AbsorbFoldsChunk := by
  refine fun s n d => ⟨fun hk => ?length, fun hn hd hp => ?phase, fun c hn hd hp hc ho => ?overflow,
    fun a c hn hd hp ha hc hm => ?accepted⟩
  case length => exact execAbsorb_of_not_chunk ((chunkOk_eq_false_iff n d).2 hk)
  case phase => exact execAbsorb_of_phase_ne ((chunkOk_iff n d).2 ⟨hn, hd⟩) hp
  case overflow => exact execAbsorb_of_overflow ((chunkOk_iff n d).2 ⟨hn, hd⟩) hp hc ho
  case accepted =>
    refine ⟨absorbBytes a d, c + BitVec.ofNat 64 n, fun j hj => ?_, fun j hj => ?_, ?_,
      execAbsorb_accepted hn hd hp ha hc hm⟩
    · rw [absorbBytes_get, chunkByte_of_lt hj]
    · rw [absorbBytes_get, chunkByte_of_ge hj]
      exact BitVec.xor_zero
    · rw [toNat_count_add, Nat.mod_eq_of_lt (by omega)]

/-- Under `wrap` a chunk in `Accumulating` is absorbed wherever the counter stands (R135). -/
theorem absorbUnder_wrap_accepted {n : Nat} {d : List Byte} {s : State} {a : AccBuffer} {c : Count}
    (hk : chunkOk n d = true) (hp : s.phase = .accumulating) (ha : s.acc = .val a) (hc : s.cnt = .val c) :
    absorbUnder .wrap n d s = .next ((absorbChunk n d a c s).respond (okResponse [])) := by
  simp [absorbUnder, hk, hp, ha, hc, accept, okResponse]

/-- Settles O4: `fault` is the value in force, so its rejection is ABSORB's own; `wrap` makes no check of the
counter. -/
theorem absorbUnderEitherOverflow : Obligations.AbsorbUnderEitherOverflow := by
  refine ⟨fun _ _ _ => rfl, fun s n d a c hn hd hp ha hc => ?_⟩
  have hk : chunkOk n d = true := (chunkOk_iff n d).2 ⟨hn, hd⟩
  exact ⟨execAbsorb_of_overflow hk hp hc, c + BitVec.ofNat 64 n, toNat_count_add c n,
    absorbUnder_wrap_accepted hk hp ha hc⟩

/-! ## A whole stream -/

/-- Settles O47: INIT leaves a zero accumulator and counter, from which `execAll_feed` says what FEED makes. -/
theorem feedAccumulatesByLanes : Obligations.FeedAccumulatesByLanes := by
  intro s st hst hm
  have hzero : (0 : Count).toNat = 0 := rfl
  obtain ⟨a, hrun, -, hlane⟩ := execAll_feed s ((beginComputation st).respond (okResponse [])) (Vector.replicate 160 0) 0
    rfl rfl rfl (by rwa [hzero, Nat.zero_add])
  have hinit := exec_init_of_accepts ((acceptsInit_iff st.phase).2 hst)
  refine ⟨_, a, 0 + BitVec.ofNat 64 s.length, (execAll_cons hinit).trans hrun, rfl, rfl, rfl, ?_, fun i => ?_⟩
  · rw [toNat_count_add, hzero, Nat.zero_add, Nat.mod_eq_of_lt (by omega)]
  · rw [hlane, zeroAcc_get]
    exact BitVec.zero_xor

/-! ## The reader loop -/

/-- The first chunk shorter than 160 bytes is the last one absorbed (R132, R136). -/
theorem readerLoop_short {d : List Byte} (rest : List (Option (List Byte))) (h : d.length < 160) :
    readerLoop (some d :: rest) = [.absorb d.length d] := by
  rw [readerLoop, if_pos h]

/-- After a full chunk the loop reads on (R136). -/
theorem readerLoop_full {d : List Byte} (rest : List (Option (List Byte))) (h : d.length = 160) :
    readerLoop (some d :: rest) = .absorb 160 d :: readerLoop rest := by
  rw [readerLoop, if_neg (Nat.not_lt.2 h.ge), h]

/-- More reads than the stream has full chunks: the loop stops by itself, having issued `FEED s` (R90, R136). -/
theorem readerLoop_readsOf {k : Nat} {s : List Byte} (hk : s.length / 160 < k) : readerLoop (readsOf k s) = feed s := by
  induction k generalizing s with
  | zero => exact absurd hk (Nat.not_lt_zero _)
  | succ k ih =>
    change readerLoop (some (s.take 160) :: readsOf k (s.drop 160)) = feed s
    by_cases h : s.length < 160
    · rw [feed_short h, List.take_of_length_le h.le, readerLoop_short _ h]
    · have hrest : (s.drop 160).length / 160 < k := by rw [List.length_drop]; omega
      rw [feed_long (Nat.not_lt.1 h), readerLoop_full _ (List.length_take_of_le (Nat.not_lt.1 h)), ih hrest]

/-- Full chunks, then a failed read: the chunks and ABORT (R136). -/
theorem readerLoop_failed {l : List (List Byte)} (rest : List (Option (List Byte))) (hl : ∀ d ∈ l, d.length = 160) :
    readerLoop (l.map some ++ none :: rest) = l.map (.absorb 160) ++ [.abort] := by
  induction l with
  | nil => rfl
  | cons d l ih =>
    obtain ⟨hd, hl⟩ := List.forall_mem_cons.1 hl
    rw [List.map_cons, List.cons_append, readerLoop_full _ hd, ih hl, List.map_cons, List.cons_append]

/-- Settles O57: by the number of reads, and by the chunks before the failed one. -/
theorem readerLoopIsFeed : Obligations.ReaderLoopIsFeed :=
  ⟨fun _ _ => readerLoop_readsOf, fun _ => readerLoop_failed⟩

end Sys2Proof.Machine
end

