-- ==== Sys2Proof/Proofs/BitScatter.lean ====
section
/-! Proofs for spec/42_bit_scatter.md: the scatter map and its inverse (R151, R153, R155), SCATTER byte by byte (R150), and
SCATTER as a permutation of 1280 wires (R154). -/

namespace Sys2Proof.Machine

/-! ## The scatter map -/

/-- The two moduli R151 writes give the same slot: 1280 is a multiple of 160, which is 8 times 20. -/
theorem sigma_mod160 (i : Fin 160) :
    (sigma i).1.val = ((i.val * 11) % 160) % 8 ∧ (sigma i).2.val = ((i.val * 11) % 160) / 8 := by
  have hp : (i.val * 11) % 1280 % 160 = (i.val * 11) % 160 := Nat.mod_mod_of_dvd _ (by decide)
  rw [← hp]
  exact ⟨(Nat.mod_mod_of_dvd _ (by decide)).symm, (Nat.mod_mul_right_div_self _ 8 20).symm⟩

/-- A slot given by R151's formula is `SIGMA`'s. -/
theorem sigma_eq_of_val {i : Fin 160} {k : Fin 8} {o : Fin 20} (hk : k.val = ((i.val * 11) % 1280) % 8)
    (ho : o.val = (((i.val * 11) % 1280) / 8) % 20) : sigma i = (k, o) :=
  Prod.ext (Fin.ext hk.symm) (Fin.ext ho.symm)

/-- Two bytes of one block come from different indices (R155). -/
theorem sigmaInv_injective (k : Fin 8) : Function.Injective (sigmaInv k) := fun o o' h => by
  have hslot : sigma (sigmaInv k o) = (k, o') := (sigma_eq_iff _ k o').2 h
  exact congrArg Prod.snd ((sigma_sigmaInv k o).symm.trans hslot)

/-- The indices scattered to block `k` are those the inverse map gives for its 20 slots. -/
theorem filter_sigma_fst_perm (k : Fin 8) :
    ((List.finRange 160).filter fun i => (sigma i).1 = k).Perm ((List.finRange 20).map (sigmaInv k)) := by
  refine (List.perm_ext_iff_of_nodup ((List.nodup_finRange 160).filter _)
    ((List.nodup_finRange 20).map (sigmaInv_injective k))).2 fun i => ?_
  simp only [List.mem_filter, List.mem_finRange, true_and, decide_eq_true_eq, List.mem_map]
  constructor
  · rintro rfl
    exact ⟨(sigma i).2, sigmaInv_sigma i⟩
  · rintro ⟨o, rfl⟩
    exact congrArg Prod.fst (sigma_sigmaInv k o)

/-- Settles O11: `scatterMap` is the bijection, and the inverse map lists the 20 indices of a block. -/
theorem scatterMapIsBijective : Obligations.ScatterMapIsBijective := by
  refine ⟨fun _ => ⟨rfl, rfl⟩, sigma_mod160, scatterMap.bijective, fun k => ?_⟩
  rw [(filter_sigma_fst_perm k).length_eq, List.length_map, List.length_finRange]

/-! ## SCATTER byte by byte -/

/-- Settles O8: the block set is `scatterBytes`, and a slot that fits R151's formula is the index's own. -/
theorem scatterFillsEverySlot : Obligations.ScatterFillsEverySlot := by
  refine fun s a hp ha => ⟨scatterBytes a, exec_scatter_of_val hp ha, fun i k o hk ho => ?_⟩
  have hslot : sigmaInv k o = i := ((sigma_eq_iff i k o).1 (sigma_eq_of_val hk ho)).symm
  exact (scatterBytes_byte a k o).trans (acc_get_congr a hslot)

/-- Settles O9: R155's index is `sigmaInv`. -/
theorem scatterSlotHoldsInverseIndex : Obligations.ScatterSlotHoldsInverseIndex := by
  refine fun s a hp ha => ⟨_, scatterBytes a, exec_scatter_of_val hp ha, rfl, fun k o i hi => ?_⟩
  have hindex : sigmaInv k o = i := Fin.ext hi.symm
  exact (scatterBytes_byte a k o).trans (acc_get_congr a hindex)

/-! ## SCATTER bit by bit -/

/-- The bijection of bits between the accumulator and the block set, each counted as one vector of 1280 bits (R154). -/
def wireMap : Fin (160 * 8) ≃ Fin (8 * 160) :=
  finProdFinEquiv.symm.trans (scatterBitMap.trans finProdFinEquiv)

/-- `wireMap` adds up the bit's place in its block and the blocks before it, as `wireOf` does. -/
theorem wireMap_val (a : Fin 1280) : (wireMap a).val = wireOf a :=
  (Nat.add_comm _ _).trans (Nat.add_assoc _ _ _).symm

theorem wireOf_lt (a : Fin 1280) : wireOf a < 1280 := wireMap_val a ▸ (wireMap a).isLt

/-- Every bit of the block set is fed by exactly one bit of the accumulator (R154). -/
theorem wireOf_existsUnique {q : Nat} (hq : q < 1280) : ∃! a : Fin 1280, wireOf a = q := by
  obtain ⟨a, ha, huniq⟩ := wireMap.bijective.existsUnique ⟨q, hq⟩
  refine ⟨a, (wireMap_val a).symm.trans (congrArg Fin.val ha), fun b hb => huniq b (Fin.ext ?_)⟩
  exact (wireMap_val b).trans hb

/-- Settles O10: bits follow `scatterBit`, `wireMap` is the permutation, and wire 1 keeps its place where `11 a` moves it. -/
theorem scatterWiresBits : Obligations.ScatterWiresBits := by
  refine ⟨fun s a hp ha => ⟨_, scatterBytes a, exec_scatter_of_val hp ha, rfl, fun i x => ?_⟩, wireOf_lt,
    fun q hq => wireOf_existsUnique hq, 1, by decide⟩
  exact scatterBytes_scatterBit a (i, x)

end Sys2Proof.Machine
end

