-- ==== Sys2Proof/Proofs/RotateCombine.lean ====
section
/-! Proofs for spec/43_rotate_combine.md: COMBINE block by block (R170), and the combination bit by bit (R173). R173's
accumulator bits for a result bit are listed once more, one through each block (`accBitsOf_perm`); their number, their
blocks and the result bit are read off that list. -/

namespace Sys2Proof.Machine

/-! ## COMBINE block by block -/

/-- COMBINE's result with its eight terms written out, block 0 unrotated (R170). -/
theorem combineBlocks_eq_rotated (b : BlockSet) :
    combineBlocks b = xorAll [b[0], rotl b[1] 1, rotl b[2] 2, rotl b[3] 3, rotl b[4] 4, rotl b[5] 5, rotl b[6] 6,
      rotl b[7] 7] := by
  rw [combineBlocks_eq_xorAll, ← rotl_zero b[0]]
  rfl

/-- Settles O12: COMBINE writes `combineBlocks`, the exclusive or of the eight terms. -/
theorem combineXorsRotatedBlocks : Obligations.CombineXorsRotatedBlocks := by
  intro s b hp hb
  rw [← combineBlocks_eq_rotated]
  exact exec_combine_of_val hp hb

/-! ## The accumulator bits of a result bit, block by block -/

/-- R173's condition, said of where SCATTER puts the bit: at bit `t` of block `k`, which COMBINE rotates by `k` to bit
`(t + k) mod 160`. The two agree because `(11 i) mod 160 = 8 o + k` for the slot `(k, o)` of byte `i` (R151). -/
theorem mem_accBitsOf {q : Nat} {x : Fin 160 × Fin 8} :
    x ∈ accBitsOf q ↔ ((scatterBit x).2.val + (scatterBit x).1.val) % 160 = q := by
  have hpos : (11 * x.1.val) % 160 + x.2.val = (scatterBit x).2.val + (scatterBit x).1.val := by
    obtain ⟨hk, ho⟩ := sigma_mod160 x.1
    simp only [scatterBit]
    omega
  simp only [accBitsOf, List.mem_filter, hpos, beq_iff_eq, and_iff_right_iff_imp]
  exact fun _ => List.mem_flatMap.2 ⟨x.1, List.mem_finRange _, List.mem_map_of_mem (List.mem_finRange x.2)⟩

theorem nodup_accBitsOf (q : Nat) : (accBitsOf q).Nodup :=
  ((List.nodup_finRange 160).product (List.nodup_finRange 8)).filter _

/-- The bit of block `k` that rotation by `k` brings to bit `q` (R112). -/
def bitBeforeRotation (q : Nat) (k : Fin 8) : Fin 160 := ⟨(q + (160 - k.val)) % 160, Nat.mod_lt _ (by decide)⟩

theorem eq_bitBeforeRotation_iff {q : Nat} (hq : q < 160) (k : Fin 8) (t : Fin 160) :
    t = bitBeforeRotation q k ↔ (t.val + k.val) % 160 = q := by
  simp only [Fin.ext_iff, bitBeforeRotation]
  omega

/-- The accumulator bit that reaches bit `q` of the combination through block `k`. -/
def accBitThrough (q : Nat) (k : Fin 8) : Fin 160 × Fin 8 := scatterBitInv (k, bitBeforeRotation q k)

theorem scatterBit_accBitThrough (q : Nat) (k : Fin 8) : scatterBit (accBitThrough q k) = (k, bitBeforeRotation q k) :=
  scatterBit_scatterBitInv _

/-- The blocks that the eight bits pass through are the eight blocks in order. -/
theorem map_block_accBitThrough (q : Nat) :
    ((List.finRange 8).map (accBitThrough q)).map (fun x => (sigma x.1).1) = List.finRange 8 := by
  have hblock (k : Fin 8) : (sigma (accBitThrough q k).1).1 = k := congrArg Prod.fst (scatterBit_accBitThrough q k)
  rw [List.map_map]
  exact (List.map_congr_left fun k _ => hblock k).trans (List.map_id' _)

theorem nodup_map_accBitThrough (q : Nat) : ((List.finRange 8).map (accBitThrough q)).Nodup :=
  List.Nodup.of_map _ (map_block_accBitThrough q ▸ List.nodup_finRange 8)

/-- R173's accumulator bits for a result bit are one through each block. -/
theorem accBitsOf_perm {q : Nat} (hq : q < 160) : (accBitsOf q).Perm ((List.finRange 8).map (accBitThrough q)) := by
  refine (List.perm_ext_iff_of_nodup (nodup_accBitsOf q) (nodup_map_accBitThrough q)).2 fun x => ?_
  rw [mem_accBitsOf, ← eq_bitBeforeRotation_iff hq, List.mem_map]
  constructor
  · intro h
    refine ⟨(scatterBit x).1, List.mem_finRange _, ?_⟩
    rw [accBitThrough, ← h]
    exact scatterBitInv_scatterBit x
  · rintro ⟨k, -, rfl⟩
    rw [scatterBit_accBitThrough]

/-! ## The combination bit by bit -/

theorem xorBits_perm {l m : List Bool} (h : l.Perm m) : xorBits l = xorBits m :=
  h.foldr_eq (lcomm := ⟨Bool.xor_left_comm⟩) false

/-- Bit `q` of block `k` rotated by `k` is the accumulator bit that comes through block `k` (R154, R170). -/
theorem getLsbD_rotl_scattered (a : AccBuffer) {q : Nat} (hq : q < 160) (k : Fin 8) :
    (rotl (scatterBytes a)[k] ⟨k.val, by omega⟩).getLsbD q =
      (a[(accBitThrough q k).1]).getLsbD (accBitThrough q k).2.val := by
  have hbit := scatterBytes_scatterBit a (accBitThrough q k)
  rw [scatterBit_accBitThrough] at hbit
  exact (getLsbD_rotl _ _ _ hq).trans hbit

/-- Each bit of the combination is the exclusive or of R173's accumulator bits. -/
theorem getLsbD_combine_scatter (a : AccBuffer) {q : Nat} (hq : q < 160) :
    (combineBlocks (scatterBytes a)).getLsbD q =
      xorBits ((accBitsOf q).map fun x => (a[x.1]).getLsbD x.2.val) := by
  rw [xorBits_perm ((accBitsOf_perm hq).map _), combineBlocks_eq_xorAll, getLsbD_xorAll, List.map_map, List.map_map]
  exact congrArg xorBits (List.map_congr_left fun k _ => getLsbD_rotl_scattered a hq k)

/-- Settles O13: the result bit by `getLsbD_combine_scatter`, its eight bits and their blocks by `accBitsOf_perm`, the
Block form by `combine_scatter`. -/
theorem combinationBitByBit : Obligations.CombinationBitByBit := by
  refine ⟨fun s a hp ha => ?_, fun q hq => ⟨?_, ?_⟩⟩
  · exact ⟨_, _, combineBlocks (scatterBytes a), exec_scatter_of_val hp ha, exec_combine_of_val rfl rfl, rfl,
      fun q hq => getLsbD_combine_scatter a hq, combine_scatter a⟩
  · rw [(accBitsOf_perm hq).length_eq, List.length_map, List.length_finRange]
  · rw [((accBitsOf_perm hq).map _).nodup_iff, map_block_accBitThrough]
    exact List.nodup_finRange 8

end Sys2Proof.Machine
end

