-- ==== Sys2Proof/Proofs/LengthFold.lean ====
section
/-! Proofs for spec/44_length_fold.md: STATUS and RDIGEST (R193, R194), FOLD under either order of the length block (R190),
what the length contributes to the digest (R192), the three engine steps as one (R197), and the rendering, digit by digit of
the numeral it is (R195). -/

namespace Sys2Proof.Machine

/-! ## STATUS and RDIGEST -/

/-- Settles O6: STATUS has one answer, `execStatus_eq`, whatever the phase; the codes are those of `phaseCode`. -/
theorem statusReturnsPhaseCode : Obligations.StatusReturnsPhaseCode :=
  ⟨execStatus_eq, rfl, rfl, rfl, rfl, rfl, rfl, rfl⟩

/-- In `Done` with a digest in RES, RDIGEST returns its 20 bytes (R194). -/
theorem exec_rdigest_of_val {s : State} {d : Block} (hp : s.phase = .done) (hr : s.res = .val d) :
    exec .rdigest s = .next (s.respond (okResponse (toBytes 20 d))) := by
  change execRdigest s = _
  rw [execRdigest, hp, beq_self_eq_true, inPhase_true, hr, readReg_val]
  exact accept_eq _ s

/-- Outside `Done` RDIGEST is rejected (R194). -/
theorem exec_rdigest_of_phase_ne {s : State} (hp : s.phase ≠ .done) :
    exec .rdigest s = .next (s.respond (errorResponse .ePhase)) := by
  change execRdigest s = _
  rw [execRdigest, beq_false_of_ne hp, inPhase_false]
  exact reject_eq _ s

/-- Settles O7: the phase decides between the digest and `E_PHASE`. -/
theorem rdigestReturnsDigest : Obligations.RdigestReturnsDigest := by
  refine fun s => ⟨fun d hp hr => ?_, exec_rdigest_of_phase_ne⟩
  rw [← toBytes_eq_ofFn]
  exact exec_rdigest_of_val hp hr

/-! ## FOLD -/

/-- In `Folding` with the combination and the counter holding values, FOLD under either order writes the digest and
discards BLK (R190, R196). -/
theorem foldUnder_of_val {s : State} {h : Block} {c : Count} (order : Config.LenOrder) (hp : s.phase = .folding)
    (hr : s.res = .val h) (hc : s.cnt = .val c) :
    foldUnder order s = .next (((s.setRes (.val (foldLength order h c))).setBlk .undef).setPhase .done) := by
  rw [foldUnder, inStepPhase_of hp, hr, readReg_val, hc, readReg_val]

/-- A byte of the digest is the combination's byte at the mirrored index, with the length block's byte XORed in (R190). -/
theorem byteAt_foldLength (order : Config.LenOrder) (h : Block) (c : Count) (j : Fin 20) :
    byteAt (foldLength order h c) j = byteAt h j.rev ^^^ byteAt (ext64 order c) j := by
  rw [foldLength, byteAt_xorBlock, byteAt_brev]

/-- Under `value` the counter's byte `j` meets the combination's byte `19 - j` (R190). -/
theorem byteAt_foldLength_value_low (h : Block) (c : Count) {j : Fin 20} (hj : j.val < 8) :
    byteAt (foldLength .value h c) j = byteAt h j.rev ^^^ BitVec.ofNat 8 (c.toNat / 2 ^ (8 * j.val)) := by
  rw [byteAt_foldLength, byteAt_ext64_value, if_pos hj, byteOf_eq_ofNat_div]

/-- The twelve high bytes of the digest never depend on the counter (R190). -/
theorem byteAt_foldLength_high (order : Config.LenOrder) (h : Block) (c : Count) {j : Fin 20} (hj : 8 ≤ j.val) :
    byteAt (foldLength order h c) j = byteAt h j.rev := by
  rw [byteAt_foldLength, byteAt_ext64_high order c hj]
  exact BitVec.xor_zero

/-- Settles O14: the order in force is `value`; `foldUnder_of_val` for the next state, and the digest byte by byte on both
sides of index 8. -/
theorem foldReversesThenXorsLength : Obligations.FoldReversesThenXorsLength :=
  ⟨fun _ => rfl, fun _ h c hp hr hc => ⟨fun order => foldUnder_of_val order hp hr hc, foldLength .value h c,
    foldUnder_of_val .value hp hr hc, fun _ => byteAt_foldLength_value_low h c,
    fun _ => byteAt_foldLength_high .value h c⟩⟩

/-- For one combination the counter is determined by the digest (R192). -/
theorem foldLength_injective (order : Config.LenOrder) (h : Block) : Function.Injective (foldLength order h) :=
  fun _ _ heq => ext64_injective order (xorBlock_left_cancel heq)

/-- Settles O53: `foldLength` is injective in the counter, and its high bytes are free of it. -/
theorem differentLengthsDifferentDigests : Obligations.DifferentLengthsDifferentDigests := by
  refine fun order h c c' hne => ⟨(foldLength_injective order h).ne hne, fun j hj => ?_⟩
  rw [byteAt_foldLength_high order h c hj, byteAt_foldLength_high order h c' hj]

/-! ## The three engine steps as one -/

/-- From `Scattering` the three steps of FINALIZE (R90) run through: each leaves the phase, and the registers, that the next
one reads, and COMBINE after SCATTER is `preAcc` (R173, R197). -/
theorem execAll_finalizeSteps {s : State} {a : AccBuffer} {c : Count} (hp : s.phase = .scattering) (ha : s.acc = .val a)
    (hc : s.cnt = .val c) :
    execAll finalizeSteps s = .next { s with
      res := .val (foldLength lenOrderInForce (preAcc a) c), blk := .undef, phase := .done } := by
  rw [← combine_scatter]
  refine (execAll_cons (exec_scatter_of_val hp ha)).trans ?_
  refine (execAll_cons (exec_combine_of_val rfl rfl)).trans ?_
  exact execAll_cons (exec_fold_of_val rfl rfl hc)

/-- Settles O34: the steps are `finalizeSteps`, the order in force is `value`, and `preAcc` is the sum R197 writes. -/
theorem threeEngineStepsFinalize : Obligations.ThreeEngineStepsFinalize :=
  fun _ _ _ hp ha hc => execAll_finalizeSteps hp ha hc

/-! ## The rendering -/

/-- The hexadecimal digit of weight `16 ^ i` in the numeral of `n`. -/
def hexDigitAt (n i : Nat) : Char := hexDigit (n / 16 ^ i % 16)

/-- A byte's two hexadecimal digits are digits `2 j + 1` and `2 j` of the whole value. -/
theorem toNat_byteOf_digits {w : Nat} (v : BitVec w) (j : Nat) :
    (byteOf v j).toNat / 16 = v.toNat / 16 ^ (2 * j + 1) % 16 ∧ (byteOf v j).toNat % 16 = v.toNat / 16 ^ (2 * j) % 16 := by
  have hweight : 2 ^ (8 * j) = 16 ^ (2 * j) := by rw [pow_mul, pow_mul, show 2 ^ 8 = 16 ^ 2 from rfl]
  rw [byteOf_eq_ofNat_div, BitVec.toNat_ofNat, hweight, pow_succ 16, ← Nat.div_div_eq_div_mul]
  omega

theorem hexByte_byteOf {w : Nat} (v : BitVec w) (j : Nat) :
    hexByte (byteOf v j) = [hexDigitAt v.toNat (2 * j + 1), hexDigitAt v.toNat (2 * j)] := by
  obtain ⟨hhigh, hlow⟩ := toNat_byteOf_digits v j
  rw [hexByte, hhigh, hlow, hexDigitAt, hexDigitAt]

theorem toBytes_succ {w : Nat} (k : Nat) (v : BitVec w) : toBytes (k + 1) v = toBytes k v ++ [byteOf v k] := by
  rw [toBytes, List.range_succ, List.map_append]
  rfl

/-- The low `k` bytes of a value, written highest byte first, are the low `2 k` digits of its numeral, highest first. -/
theorem hex_toBytes_reverse {w : Nat} (k : Nat) (v : BitVec w) :
    (toBytes k v).reverse.flatMap hexByte = (List.range (2 * k)).reverse.map (hexDigitAt v.toNat) := by
  induction k with
  | zero => rfl
  | succ k ih =>
    rw [toBytes_succ, List.reverse_concat, List.flatMap_cons, ih, hexByte_byteOf, Nat.mul_succ, List.range_succ,
      List.range_succ, List.reverse_concat, List.reverse_concat]
    rfl

/-- The rendering is the numeral of the digest's value in 40 digits, highest first (R195). -/
theorem render_eq_numeral (d : Block) : render d = (List.range 40).map fun p => hexDigitAt d.toNat (39 - p) := by
  have hpos : (List.range 40).reverse = (List.range 40).map (39 - ·) := by decide
  rw [render, hex_toBytes_reverse, hpos, List.map_map]
  rfl

theorem render_getElem? (d : Block) {p : Nat} (hp : p < 40) : (render d)[p]? = some (hexDigitAt d.toNat (39 - p)) := by
  rw [render_eq_numeral, List.getElem?_map, List.getElem?_range hp, Option.map_some]

/-- Settles O56: characters `2 u` and `2 u + 1` of the numeral are its digits `2 (19 - u) + 1` and `2 (19 - u)`, which are
those of byte `19 - u`. -/
theorem renderWritesHighByteFirst : Obligations.RenderWritesHighByteFirst := by
  refine fun d => ⟨?_, fun u => ?_, render_eq_numeral d⟩
  · rw [render_eq_numeral, List.length_map, List.length_range]
  · obtain ⟨hhigh, hlow⟩ := toNat_byteOf_digits d (19 - u.val)
    rw [byteAt, hhigh, hlow, render_getElem? d (by omega), render_getElem? d (by omega),
      show 39 - 2 * u.val = 2 * (19 - u.val) + 1 by omega, show 39 - (2 * u.val + 1) = 2 * (19 - u.val) by omega]
    exact ⟨rfl, rfl⟩

end Sys2Proof.Machine
end

