-- ==== Sys2Proof/Proofs/DigestFunction.lean ====
section
/-! Proofs for spec/45_digest_function.md: the engine computes the digest (R211) under either order of the length block
(R210), for the empty stream as for any other (R214); and what a flipped bit (R217), trailing zero bytes (R218) and a
repetition of whole chunks (R221) make of it. -/

namespace Sys2Proof.Machine

/-! ## The engine computes the digest -/

/-- The digest is FOLD's function of `PRE` and the length (R190, R210). -/
theorem qxh_eq_foldLength (order : Config.LenOrder) (s : List Byte) :
    qxh order s = foldLength order (pre s) (BitVec.ofNat 64 s.length) := rfl

/-- Steps (1) to (3) of R211's outline: INIT and FEED end Accumulation with the length counted and an accumulator whose
closed form is `PRE`. -/
theorem execAll_init_feed {s : List Byte} {st : State} (hst : st.cleanEntry) (hm : s.length ≤ 2 ^ 64 - 1) :
    ∃ (t : State) (a : AccBuffer), execAll (.init :: feed s) st = .next t ∧ t.phase = .scattering ∧ t.acc = .val a ∧
      t.cnt = .val (BitVec.ofNat 64 s.length) ∧ preAcc a = pre s := by
  have hzero : (0 : Count).toNat = 0 := rfl
  obtain ⟨a, hrun, hpre, -⟩ := execAll_feed s ((beginComputation st).respond (okResponse [])) (Vector.replicate 160 0#8) 0
    rfl rfl rfl (by rwa [hzero, Nat.zero_add])
  have hinit := exec_init_of_accepts ((acceptsInit_iff st.phase).2 hst)
  refine ⟨_, a, (execAll_cons hinit).trans hrun, rfl, rfl, congrArg Reg.val (BitVec.zero_add _), ?_⟩
  rw [hpre, preAcc_zero, zero_xorBlock]

/-- Step (4) of R211's outline: from any clean entry HASH up to the digest ends in `Done` with the digest in RES and the
length in CNT. -/
theorem execAll_hashBody {s : List Byte} {st : State} (hst : st.cleanEntry) (hm : s.length ≤ 2 ^ 64 - 1) :
    ∃ t : State, execAll (hashBody s) st = .next t ∧ t.phase = .done ∧ t.cnt = .val (BitVec.ofNat 64 s.length) ∧
      t.res = .val (qxh .value s) := by
  obtain ⟨u, a, hrun, hp, ha, hc, hpre⟩ := execAll_init_feed hst hm
  refine ⟨_, (execAll_append hrun).trans (execAll_finalizeSteps hp ha hc), rfl, hc, ?_⟩
  exact congrArg (fun h => Reg.val (foldLength .value h (BitVec.ofNat 64 s.length))) hpre

/-- Settles O48: RDIGEST sends the digest that `execAll_hashBody` finds in RES. -/
theorem engineComputesQxh : Obligations.EngineComputesQxh := by
  intro s st hst hm
  obtain ⟨u, hrun, hp, -, hr⟩ := execAll_hashBody hst hm
  refine ⟨_, (execAll_append hrun).trans (execAll_cons (exec_rdigest_of_val hp hr)), hp, hr, ?_⟩
  rw [← toBytes_eq_ofFn]
  exact List.getLast?_concat

/-- Settles O50: COMBINE after SCATTER leaves the accumulator's closed form, which is `PRE`, and FOLD takes the order. -/
theorem qxhUnderEitherLengthOrder : Obligations.QxhUnderEitherLengthOrder := by
  intro order s st hst hm
  obtain ⟨u, a, hrun, hp, ha, hc, hpre⟩ := execAll_init_feed hst hm
  have hcombine := (execAll_append hrun).trans ((execAll_cons (exec_scatter_of_val hp ha)).trans
    (execAll_cons (l := []) (exec_combine_of_val rfl rfl)))
  rw [combine_scatter, hpre] at hcombine
  exact ⟨_, _, hcombine, rfl, foldUnder_of_val order rfl rfl hc, rfl, rfl⟩

/-! ## The empty stream -/

/-- The digest of the empty stream is zero: nothing is combined and the length is zero (R214). -/
theorem qxh_nil (order : Config.LenOrder) : qxh order [] = zeroBlock := by
  rw [qxh_eq_foldLength, foldLength, show pre [] = zeroBlock from rfl, brev_zeroBlock, zero_xorBlock]
  exact ext64_zero order

/-- Every hexadecimal digit of zero is `0` (R195). -/
theorem render_zeroBlock : render zeroBlock = List.replicate 40 '0' := by decide

/-- Settles O55: the empty stream is fed as its terminal chunk, and `execAll_hashBody` holds of it as of any stream. -/
theorem emptyStreamDigestIsZero : Obligations.EmptyStreamDigestIsZero := by
  refine ⟨feed_short (by decide), fun order => ⟨qxh_nil order, by rw [qxh_nil, render_zeroBlock]⟩, fun st hst => ?_⟩
  have hrun := execAll_hashBody (s := []) hst (by decide)
  rwa [qxh_nil] at hrun

/-! ## A flipped bit -/

section
variable (order : Config.LenOrder) {s : List Byte} {t : Nat} (x : Byte)

/-- A change of stream byte `t` by `x` changes `PRE` by `x` rotated by `(11 t) mod 160` (R217). -/
theorem pre_set (h : t < s.length) :
    pre (s.set t (s[t] ^^^ x)) = xorBlock (pre s) (rotl (ext8 x) (rotationOf t)) := by
  rw [pre, preFrom_set s t 0 x h, Nat.zero_add, pre]

/-- The same change of the stream changes the digest by that Block reversed: the length is the same (R217). -/
theorem qxh_set (h : t < s.length) :
    qxh order (s.set t (s[t] ^^^ x)) = xorBlock (qxh order s) (brev (rotl (ext8 x) (rotationOf t))) := by
  rw [qxh, qxh, pre_set x h, brev_xorBlock, List.length_set, xorBlock_assoc, xorBlock_assoc, xorBlock_comm (ext64 _ _)]

/-- One change made at two positions a period apart cancels (R217, R221). -/
theorem qxh_set_set_period (h : t + 160 < s.length) :
    qxh order ((s.set t (s[t] ^^^ x)).set (t + 160) (s[t + 160] ^^^ x)) = qxh order s := by
  have hother : (s.set t (s[t] ^^^ x))[t + 160]'(by rwa [List.length_set]) = s[t + 160] :=
    List.getElem_set_ne (by omega) _
  rw [← hother, qxh_set, qxh_set, rotationOf_add_period, xorBlock_assoc, xorBlock_self, xorBlock_zero]

end

/-- EXT8 of a byte with one bit is a Block with that bit alone (R114). -/
theorem getLsbD_ext8_oneBit {b q : Nat} (hb : b < 8) (hq : q < 160) :
    (ext8 ((1 : Byte) <<< b)).getLsbD q = decide (q = b) := by
  rw [getLsbD_ext8 _ _ hq, show (1 : Byte) <<< b = BitVec.twoPow 8 b from rfl, BitVec.getLsbD_twoPow, decide_eq_true hb,
    Bool.true_and, decide_eq_decide, eq_comm]

/-- One bit, rotated to the place of stream byte `t`, is at `((11 t) mod 160 + b) mod 160` (R217). -/
theorem getLsbD_rotl_ext8_oneBit (t : Nat) {b q : Nat} (hb : b < 8) (hq : q < 160) :
    (rotl (ext8 ((1 : Byte) <<< b)) (rotationOf t)).getLsbD q = decide (q = ((11 * t) % 160 + b) % 160) := by
  rw [getLsbD_rotl _ _ _ hq, getLsbD_ext8_oneBit hb (Nat.mod_lt _ (by decide)), decide_eq_decide]
  simp only [rotationOf, Config.scatterStep]
  omega

theorem setBits_ext8_oneBit {b : Nat} (hb : b < 8) : setBits (ext8 ((1 : Byte) <<< b)) = 1 := by
  have hbits : ((List.range 160).filter fun q => (ext8 ((1 : Byte) <<< b)).getLsbD q) = (List.range 160).filter (· == b) :=
    List.filter_congr fun q hq => getLsbD_ext8_oneBit hb (List.mem_range.1 hq)
  rw [setBits, hbits, ← List.countP_eq_length_filter]
  exact List.count_eq_one_of_mem List.nodup_range (List.mem_range.2 (by omega))

/-- Settles O51: the difference of the two `PRE` is one bit rotated, which rotation and reversal keep one bit. -/
theorem flippedBitFlipsOneDigestBit : Obligations.FlippedBitFlipsOneDigestBit := by
  refine fun order s t b h hb => ⟨fun q hq => ?_, ?_, qxh_set_set_period order _⟩
  · rw [pre_set _ h, getLsbD_xorBlock, getLsbD_rotl_ext8_oneBit t hb hq]
    cases (pre s).getLsbD q <;> simp
  · rw [qxh_set order _ h, xorBlock_comm, ← xorBlock_assoc, xorBlock_self, zero_xorBlock, setBits_brev, setBits_rotl,
      setBits_ext8_oneBit hb]

/-! ## Trailing zero bytes -/

/-- A zero byte adds nothing to `PRE`, wherever it stands (R218). -/
theorem pre_append_zeroes (s : List Byte) (k : Nat) : pre (s ++ List.replicate k 0) = pre s := by
  rw [pre, preFrom_append, preFrom_zeroes, xorBlock_zero, pre]

/-- Two lengths that the counter holds are told apart by it (R22). -/
theorem count_ofNat_inj {m n : Nat} (hm : m ≤ 2 ^ 64 - 1) (hn : n ≤ 2 ^ 64 - 1) :
    BitVec.ofNat 64 m = BitVec.ofNat 64 n ↔ m = n := by
  rw [← BitVec.toNat_inj, BitVec.toNat_ofNat, BitVec.toNat_ofNat]
  omega

/-- Settles O52: with `PRE` unchanged, the digests differ as the lengths do, FOLD being injective in the counter. -/
theorem trailingZeroesChangeTheDigest : Obligations.TrailingZeroesChangeTheDigest := by
  refine fun order s k hk hm => ⟨pre_append_zeroes s k, ?_⟩
  rw [qxh_eq_foldLength, qxh_eq_foldLength, pre_append_zeroes, (foldLength_injective order _).ne_iff,
    List.length_append, List.length_replicate, Ne, count_ofNat_inj hm (by omega)]
  omega

/-! ## A stream of whole chunks, repeated -/

/-- The terms of `PRE` are the same from any whole number of chunks later on (R221). -/
theorem preFrom_add_mul_period (t k : Nat) (s : List Byte) : preFrom (t + 160 * k) s = preFrom t s := by
  induction k with
  | zero => rfl
  | succ k ih => rw [Nat.mul_succ, ← Nat.add_assoc, preFrom_period, ih]

/-- A stream of whole chunks cancels its own repetition (R221). -/
theorem pre_append_self {s : List Byte} (h : s.length % 160 = 0) : pre (s ++ s) = zeroBlock := by
  obtain ⟨k, hk⟩ := Nat.dvd_of_mod_eq_zero h
  rw [pre, preFrom_append, hk, preFrom_add_mul_period, xorBlock_self]

/-- Settles O54: `PRE` cancels, and of the digest the length block is left. -/
theorem repeatedStreamLeavesOnlyTheLength : Obligations.RepeatedStreamLeavesOnlyTheLength := by
  refine ⟨fun t => congrArg Fin.val (rotationOf_add_period t), fun order s h _ => ⟨pre_append_self h, ?_⟩⟩
  rw [qxh, pre_append_self h, brev_zeroBlock, zero_xorBlock, List.length_append, Nat.two_mul]

end Sys2Proof.Machine
end

