-- ==== Sys2Proof/Proofs/Exceptions.lean ====
section
/-! Proofs for spec/60_exceptions.md: when a host command is rejected and with which error (R234), the order of the checks
(R235), that a rejection changes nothing else (R237), and how `Aborted` is entered and left (R231, R240). The rules on
rejections rest on `Rejects`, the conditions of R234 and R235, and on `exec_eq_error_iff`, that they are exactly those under
which `exec` answers with an error. -/

namespace Sys2Proof.Machine

/-! ## When a host command is rejected -/

/-- The host command is rejected with the error: the three checks after decoding, each where the ones before it passed
(R234, R235). -/
inductive Rejects (s : State) : Instr → ErrorCode → Prop
  /-- operands that are no chunk (R86) -/
  | length {n : Nat} {d : List Byte} (hk : chunkOk n d = false) : Rejects s (.absorb n d) .eLength
  /-- a phase that does not accept the command -/
  | phase {i : Instr} (hi : opClass i = .hostCommand) (hw : i.wellFormed = true) (ha : acceptedIn i s.phase = false) :
      Rejects s i .ePhase
  /-- a chunk past the counter's end (R131) -/
  | overflow {n : Nat} {d : List Byte} {c : Count} (hk : chunkOk n d = true) (hp : s.phase = .accumulating)
      (hc : s.cnt = .val c) (ho : 2 ^ 64 - 1 < c.toNat + n) : Rejects s (.absorb n d) .eOverflow

theorem acceptedIn_init (p : Phase) : acceptedIn .init p = acceptsInit p := by cases p <;> rfl

/-- A host command in a phase that does not accept it: `E_PHASE` (R234). -/
theorem exec_of_not_acceptedIn {i : Instr} {s : State} (hi : opClass i = .hostCommand) (hw : i.wellFormed = true)
    (ha : acceptedIn i s.phase = false) : exec i s = .next (s.respond (errorResponse .ePhase)) := by
  cases i <;> simp only [opClass, reduceCtorEq] at hi
  case init => exact exec_init_of_not_accepts (acceptedIn_init s.phase ▸ ha)
  case absorb n d => exact execAbsorb_of_phase_ne hw (beq_eq_false_iff_ne.1 ha)
  case abort => exact congrArg (inPhase · s _) ha
  case status => cases ha
  case rdigest => exact exec_rdigest_of_phase_ne (beq_eq_false_iff_ne.1 ha)

/-- A rejected command is answered with the error and leaves everything else as it was (R237). -/
theorem Rejects.exec_eq {s : State} {i : Instr} {e : ErrorCode} (h : Rejects s i e) :
    exec i s = .next (s.respond (errorResponse e)) := by
  cases h with
  | length hk => exact execAbsorb_of_not_chunk hk
  | phase hi hw ha => exact exec_of_not_acceptedIn hi hw ha
  | overflow hk hp hc ho => exact execAbsorb_of_overflow hk hp hc ho

/-- A host command that answers a next state was rejected, by a check that failed, or performed and answered `OK`. -/
theorem exec_hostCommand_cases {i : Instr} {s t : State} (hi : opClass i = .hostCommand) (h : exec i s = .next t) :
    (∃ e, Rejects s i e ∧ t = s.respond (errorResponse e)) ∨
      ∃ (u : State) (p : List Byte), u.responses = s.responses ∧ t = u.respond (okResponse p) := by
  cases i <;> simp only [opClass, reduceCtorEq] at hi
  case init =>
    obtain ⟨-, rfl⟩ | ⟨hp, rfl⟩ := execInit_cases h
    · exact .inr ⟨beginComputation s, _, rfl, rfl⟩
    · exact .inl ⟨_, .phase rfl rfl ((acceptedIn_init _).trans hp), rfl⟩
  case absorb n d =>
    obtain ⟨hk, rfl⟩ | ⟨hk, hp, rfl⟩ | ⟨hk, hp, c, hc, ⟨ho, rfl⟩ | ⟨-, a, -, rfl⟩⟩ := execAbsorb_next.1 h
    · exact .inl ⟨_, .length hk, rfl⟩
    · exact .inl ⟨_, .phase rfl hk (beq_false_of_ne hp), rfl⟩
    · exact .inl ⟨_, .overflow hk hp hc ho, rfl⟩
    · exact .inr ⟨absorbChunk n d a c s, _, rfl, rfl⟩
  case abort =>
    obtain ⟨-, rfl⟩ | ⟨hp, rfl⟩ := execAbort_cases h
    · exact .inr ⟨enterAborted s, _, rfl, rfl⟩
    · exact .inl ⟨_, .phase rfl rfl (beq_false_of_ne hp), rfl⟩
  case status =>
    cases h
    exact .inr ⟨s, _, rfl, rfl⟩
  case rdigest =>
    obtain ⟨-, b, -, rfl⟩ | ⟨hp, rfl⟩ := execRdigest_cases h
    · exact .inr ⟨s, _, rfl, rfl⟩
    · exact .inl ⟨_, .phase rfl rfl (beq_false_of_ne hp), rfl⟩

/-- A host command whose last response is an error was rejected with that error, and changed nothing else (R237). -/
theorem rejects_of_error_response {i : Instr} {s t : State} {r : Response} {e : ErrorCode} (hi : opClass i = .hostCommand)
    (h : exec i s = .next t) (ht : t.responses = s.responses ++ [r]) (hr : r.status = .error e) :
    Rejects s i e ∧ t = s.respond (errorResponse e) := by
  obtain ⟨e', hrej, rfl⟩ | ⟨u, p, hu, rfl⟩ := exec_hostCommand_cases hi h
  · obtain rfl : errorResponse e' = r := by simpa using ht
    obtain rfl : e' = e := Status.error.inj hr
    exact ⟨hrej, rfl⟩
  · obtain rfl : okResponse p = r := by simpa [hu] using ht
    cases hr

/-- The checks of R234 say exactly when a host command is answered with which error. -/
theorem exec_eq_error_iff {i : Instr} {s : State} {e : ErrorCode} (hi : opClass i = .hostCommand) :
    exec i s = .next (s.respond (errorResponse e)) ↔ Rejects s i e :=
  ⟨fun h => (rejects_of_error_response hi h rfl rfl).1, Rejects.exec_eq⟩

theorem rejects_eLength_iff {s : State} {i : Instr} :
    Rejects s i .eLength ↔ ∃ n d, i = .absorb n d ∧ (160 < n ∨ d.length ≠ n) := by
  constructor
  · rintro ⟨hk⟩
    exact ⟨_, _, rfl, (chunkOk_eq_false_iff _ _).1 hk⟩
  · rintro ⟨n, d, rfl, h⟩
    exact .length ((chunkOk_eq_false_iff n d).2 h)

theorem rejects_ePhase_iff {s : State} {i : Instr} (hi : opClass i = .hostCommand) :
    Rejects s i .ePhase ↔ i.wellFormed = true ∧ acceptedIn i s.phase = false := by
  constructor
  · intro h
    cases h with
    | phase _ hw ha => exact ⟨hw, ha⟩
  · exact fun ⟨hw, ha⟩ => .phase hi hw ha

theorem rejects_eOverflow_iff {s : State} {i : Instr} :
    Rejects s i .eOverflow ↔ ∃ n d c, i = .absorb n d ∧ i.wellFormed = true ∧ s.phase = .accumulating ∧ s.cnt = .val c ∧
      2 ^ 64 - 1 < c.toNat + n := by
  constructor
  · intro h
    cases h with
    | overflow hk hp hc ho => exact ⟨_, _, _, rfl, hk, hp, hc, ho⟩
  · rintro ⟨n, d, c, rfl, hw, hp, hc, ho⟩
    exact .overflow hw hp hc ho

/-- No check after decoding gives `E_OPCODE`. -/
theorem not_rejects_eOpcode {s : State} {i : Instr} : ¬ Rejects s i .eOpcode := nofun

theorem decodeChunk_ne_eOpcode (bs rest : List Byte) : decodeChunk bs ≠ .rejected .eOpcode rest := by
  cases bs with
  | nil => nofun
  | cons n d => obtain ⟨-, h⟩ | ⟨-, -, h⟩ | ⟨-, -, h⟩ := decodeChunk_cons n d <;> simp [h]

/-- The port gives `E_OPCODE` for a first byte that is no host command's, with that byte consumed, and for no other (R86). -/
theorem decodePort_eOpcode_iff (b : Byte) (rest r : List Byte) :
    decodePort (b :: rest) = .rejected .eOpcode r ↔ (b ≠ 1 ∧ b ≠ 2 ∧ b ≠ 3 ∧ b ≠ 4 ∧ b ≠ 5) ∧ rest = r := by
  obtain ⟨rfl, h⟩ | ⟨rfl, h⟩ | ⟨rfl, h⟩ | ⟨rfl, h⟩ | ⟨rfl, h⟩ | ⟨h1, h2, h3, h4, h5, h⟩ := decodePort_cons b rest <;> rw [h]
  case inr.inl => simp [decodeChunk_ne_eOpcode]
  case inr.inr.inr.inr.inr =>
    simp only [PortRead.rejected.injEq, ne_eq, h1, h2, h3, h4, h5, not_false_eq_true, and_true, true_and]
  all_goals simp

/-- Settles O21: each error's rejections are those of `Rejects`, and the port's are those of `decodePort_eOpcode_iff`. -/
theorem everyRejectionHasItsCondition : Obligations.EveryRejectionHasItsCondition := by
  refine ⟨⟨rfl, rfl, rfl, rfl, rfl⟩, fun i s hi => ⟨?_, ?_, ?_, ?_⟩, fun s b rest hs => ?_⟩
  · exact (exec_eq_error_iff hi).trans rejects_eLength_iff
  · exact (exec_eq_error_iff hi).trans (rejects_ePhase_iff hi)
  · exact (exec_eq_error_iff hi).trans rejects_eOverflow_iff
  · exact mt (exec_eq_error_iff hi).1 not_rejects_eOpcode
  · simp [hs, decodePort_eOpcode_iff]

/-! ## The order of the checks -/

/-- Bytes rejected at decode are consumed and the error sent, before anything else happens (R86; log 6). -/
theorem step_of_decodePort_rejected {s : State} {e : ErrorCode} {rest : List Byte}
    (hd : decodePort s.port = .rejected e rest) : step s = .next ((s.setPort rest).respond (errorResponse e)) := by
  simp [step, nextTurn, hd, reject, errorResponse]

/-- A length above 160 is rejected with no data byte consumed, whatever follows (R86). -/
theorem decodePort_of_length_gt {n : Byte} (rest : List Byte) (hn : 160 < n.toNat) :
    decodePort (2 :: n :: rest) = .rejected .eLength rest := by
  change decodeChunk (n :: rest) = _
  rw [decodeChunk, if_pos hn]

/-- A whole chunk at the port that a later check rejects: its bytes are consumed and the error sent (R235). -/
theorem step_of_rejected_chunk {s : State} {n : Byte} {d rest : List Byte} {e : ErrorCode}
    (hs : s.port = 2 :: n :: (d ++ rest)) (hk : chunkOk n.toNat d = true) (h : Rejects (s.setPort rest) (.absorb n.toNat d) e) :
    step s = .next ((s.setPort rest).respond (errorResponse e)) := by
  have hport : s.port = encode (.absorb n.toNat d) ++ rest := by simp [hs, encode, opcode, operandBytes]
  exact (stepPerformsPortCommand s (.absorb n.toNat d) rest hk rfl hport).trans h.exec_eq

/-- Settles O22: the first two checks are the port's decoder's, the last two `Rejects` of the chunk it reads. -/
theorem checksHappenInOrder : Obligations.ChecksHappenInOrder := by
  refine ⟨fun s b rest hs h1 h2 h3 h4 h5 => ?opcode, fun s n rest hs hn => ?length,
    fun s n d rest hs hn hd hp => ?phase, fun s n d rest c hs hn hd hp hc ho => ?overflow⟩
  case opcode => exact step_of_decodePort_rejected (hs ▸ (decodePort_eOpcode_iff b rest rest).2 ⟨⟨h1, h2, h3, h4, h5⟩, rfl⟩)
  case length => exact step_of_decodePort_rejected (hs ▸ decodePort_of_length_gt rest hn)
  case phase =>
    have hk : chunkOk n.toNat d = true := (chunkOk_iff _ d).2 ⟨hn, hd⟩
    exact step_of_rejected_chunk hs hk (.phase rfl hk (beq_false_of_ne hp))
  case overflow =>
    have hk : chunkOk n.toNat d = true := (chunkOk_iff _ d).2 ⟨hn, hd⟩
    exact step_of_rejected_chunk hs hk (.overflow hk hp hc ho)

/-! ## Nothing else changes, and engine steps do not fail -/

theorem Reg.isDef_iff {α : Type} (r : Reg α) : r.isDef = true ↔ ∃ v, r = .val v := by
  cases r <;> simp

/-- In a live state the engine step of the phase finds every register it reads, and answers a next state (R31, R237). -/
theorem exec_engineStep_of_live {i : Instr} {s : State} (hs : s.live) (hi : engineStepOf s.phase = some i) :
    ∃ t, exec i s = .next t := by
  rw [State.live_iff] at hs
  cases hp : s.phase <;>
    simp only [hp, engineStepOf, Option.some.injEq, reduceCtorEq, definedIn, List.cons.injEq, Reg.isDef_iff] at hi hs
  case scattering =>
    subst hi
    obtain ⟨⟨a, ha⟩, -⟩ := hs
    exact ⟨_, exec_scatter_of_val hp ha⟩
  case combining =>
    subst hi
    obtain ⟨-, -, ⟨b, hb⟩, -⟩ := hs
    exact ⟨_, exec_combine_of_val hp hb⟩
  case folding =>
    subst hi
    obtain ⟨-, ⟨c, hc⟩, -, ⟨r, hr⟩, -⟩ := hs
    exact ⟨_, exec_fold_of_val hp hr hc⟩

/-- Settles O23: an error response is that of a rejection, and the engine step of a live state's phase reads no `undef`. -/
theorem rejectedCommandChangesNothing : Obligations.RejectedCommandChangesNothing :=
  ⟨fun _ _ _ _ _ hi h ht => (rejects_of_error_response hi h ht rfl).2, fun _ _ => exec_engineStep_of_live⟩

/-! ## Entering and leaving `Aborted` -/

/-- In `Accumulating` ABORT is performed (R231). -/
theorem exec_abort_of_accumulating {s : State} (hp : s.phase = .accumulating) :
    exec .abort s = .next ((enterAborted s).respond (okResponse [])) := by
  change execAbort s = _
  rw [execAbort, hp, beq_self_eq_true, inPhase_true]
  rfl

/-- Settles O5: the phase decides between `enterAborted` and a rejection. -/
theorem abortEntersAborted : Obligations.AbortEntersAborted := fun _ =>
  ⟨exec_abort_of_accumulating, fun hp => exec_of_not_acceptedIn rfl rfl (beq_false_of_ne hp)⟩

theorem sameButInterface.registers_eq {s u : State} (h : sameButInterface s u) : u.registers = s.registers := by
  rw [h]; rfl

/-- In `Aborted` no operation but INIT writes a register, and INIT restores none (R240). -/
theorem Effect.registers_of_aborted {i : Instr} {s t : State} (h : Effect s i t) (hp : s.phase = .aborted) :
    t.registers = s.registers ∨
      (i = .init ∧ t.registers = (.accumulating, .val (Vector.replicate 160 0), .val 0, .undef, .undef)) := by
  cases h with
  | answered r => exact .inl rfl
  | begun => exact .inr ⟨rfl, rfl⟩
  | returned b => exact .inl rfl
  | absorbed _ hq => cases hp.symm.trans hq
  | aborted hq => cases hp.symm.trans hq
  | scattered hq => cases hp.symm.trans hq
  | combined hq => cases hp.symm.trans hq
  | folded hq => cases hp.symm.trans hq

/-- Settles O40: by the cases of a step, of which only an operation and reset touch the five registers. -/
theorem abortedLeftOnlyByInitOrReset : Obligations.AbortedLeftOnlyByInitOrReset := by
  intro s t hp h
  obtain ⟨i, u, hn, -, hu, he⟩ | ⟨e, u, hu, rfl⟩ | ⟨rest, -, hin, rfl⟩ | ht := step_cases h
  · obtain ⟨hup, -⟩ := hu.fields
    obtain hr | ⟨rfl, hr⟩ := (exec_effect he).registers_of_aborted (hup.trans hp)
    · exact .inl (hr.trans hu.registers_eq)
    · exact .inr (.inl ⟨u, hn, hr⟩)
  · exact .inl hu.registers_eq
  · exact .inr (.inr ⟨⟨rest, hin⟩, rfl⟩)
  · exact .inl ht.registers_eq

end Sys2Proof.Machine
end

/-! Proofs for spec/70_reset_and_hazards.md: the effect of reset on the five registers (R260), and that the bytes of INIT and
`FEED s`, once arrived, lead by the machine's own steps to `Done` with the digest (R270, R272). The run is read off `execAll`:
`run_portBytes` takes the port's commands one step each, `run_finalizeSteps` the three steps the engine takes unprompted. -/

namespace Sys2Proof.Machine

/-! ## Reset -/

/-- Settles O1: `hardReset` writes each of the five registers, and `State.reset` holds the same values. -/
theorem hardResetLeavesStartAndUndef : Obligations.HardResetLeavesStartAndUndef := ⟨fun _ => rfl, rfl⟩

/-! ## Commands waiting at the port -/

/-- A run of operations that answers a next state answered one after its first operation. -/
theorem execAll_cons_next {i : Instr} {l : List Instr} {s t : State} (h : execAll (i :: l) s = .next t) :
    ∃ u, exec i s = .next u ∧ execAll l u = .next t := by
  rw [execAll] at h
  split at h
  · next u hu => exact ⟨u, hu, h⟩
  · cases h
  · cases h

/-- No run of operations reads or writes the bytes at the port. -/
theorem execAll_setPort {l : List Instr} {s t : State} (p : List Byte) (h : execAll l s = .next t) :
    execAll l (s.setPort p) = .next (t.setPort p) := by
  induction l generalizing s with
  | nil => cases h; rfl
  | cons i l ih =>
    obtain ⟨u, hu, h⟩ := execAll_cons_next h
    exact (execAll_cons (exec_setPort p hu)).trans (ih h)

/-- Host commands whose bytes are all that waits at the port are performed one step each, and their bytes consumed
(R61, R92). -/
theorem run_portBytes {l : List Instr} (hl : ∀ i ∈ l, i.wellFormed = true ∧ opClass i = .hostCommand) (k : Nat)
    {s t : State} (hs : s.port = portBytes l) (h : execAll l s = .next t) :
    Host.Core.run Sys2Proof.core (k + l.length) s = Host.Core.run Sys2Proof.core k (t.setPort []) := by
  induction l generalizing s t with
  | nil =>
    cases h
    rw [← show s.port = [] from hs]
    rfl
  | cons i l ih =>
    obtain ⟨⟨hw, hi⟩, hl⟩ := List.forall_mem_cons.1 hl
    obtain ⟨u, hu, h⟩ := execAll_cons_next h
    have hstep : step s = .next (u.setPort (portBytes l)) :=
      (stepPerformsPortCommand s i (portBytes l) hw hi hs).trans (exec_setPort _ hu)
    have hrest := ih hl rfl (execAll_setPort (portBytes l) h)
    exact (core_run_succ (k + l.length) hstep).trans hrest

/-! ## The engine's own steps -/

/-- With no byte at the port and no event to come, a run goes on with the engine step of the phase (R270). -/
theorem run_engineStep {i : Instr} {s t : State} (h : exec i s = .next t) (hs : s.undisturbed)
    (hi : engineStepOf s.phase = some i) (k : Nat) :
    Host.Core.run Sys2Proof.core (k + 1) s = Host.Core.run Sys2Proof.core k t :=
  core_run_succ k ((step_undisturbed hs hi).trans h)

/-- Undisturbed, the engine takes the three steps of FINALIZE by itself: SCATTER and COMBINE leave the phase that enables the
next one, and touch neither the port nor the events to come (R90, R270). -/
theorem run_finalizeSteps {s t : State} (hs : s.undisturbed) (h : execAll finalizeSteps s = .next t) :
    Host.Core.run Sys2Proof.core 3 s = .next t := by
  obtain ⟨u, hscatter, h⟩ := execAll_cons_next h
  obtain ⟨v, hcombine, h⟩ := execAll_cons_next h
  obtain ⟨w, hfold, hdone⟩ := execAll_cons_next h
  obtain ⟨hp, a, -, rfl⟩ := execScatter_cases hscatter
  obtain ⟨-, b, -, rfl⟩ := execCombine_cases hcombine
  calc Host.Core.run Sys2Proof.core 3 s
    _ = Host.Core.run Sys2Proof.core 2 _ := run_engineStep hscatter hs (congrArg engineStepOf hp) 2
    _ = Host.Core.run Sys2Proof.core 1 _ := run_engineStep hcombine hs rfl 1
    _ = Host.Core.run Sys2Proof.core 0 w := run_engineStep hfold hs rfl 0
    _ = .next t := hdone

/-! ## INIT and FEED -/

theorem length_feed (s : List Byte) : (feed s).length = s.length / 160 + 1 := by simp [feed]

/-- Every command of INIT and FEED is a well-formed host command: each chunk has at most 160 bytes and is as long as its
length byte says (R81, R90). -/
theorem init_feed_wellFormed (s : List Byte) :
    ∀ i ∈ Instr.init :: feed s, i.wellFormed = true ∧ opClass i = .hostCommand := by
  refine List.forall_mem_cons.2 ⟨⟨rfl, rfl⟩, fun i hi => ?_⟩
  obtain hi | hi := List.mem_append.1 hi
  · obtain ⟨c, hc, rfl⟩ := List.mem_map.1 hi
    have hlen : ((s.drop (160 * c)).take 160).length = 160 := by
      have := List.mem_range.1 hc
      rw [List.length_take, List.length_drop]
      omega
    exact ⟨(chunkOk_iff _ _).2 ⟨le_rfl, hlen⟩, rfl⟩
  · obtain rfl := List.mem_singleton.1 hi
    have hlen : (s.drop (160 * (s.length / 160))).length = s.length % 160 := by rw [List.length_drop]; omega
    exact ⟨(chunkOk_iff _ _).2 ⟨by omega, hlen⟩, rfl⟩

/-- What INIT and FEED leave: Accumulation has ended with an accumulator whose closed form is `PRE` and the length counted,
every command has been answered `OK`, and neither the port nor the events to come were touched (R211, R272). -/
theorem execAll_init_feed_frame {s : List Byte} {st : State} (hst : st.cleanEntry) (hm : s.length ≤ 2 ^ 64 - 1) :
    ∃ a : AccBuffer, preAcc a = pre s ∧ execAll (.init :: feed s) st = .next { st with
      phase := .scattering, acc := .val a, cnt := .val (BitVec.ofNat 64 s.length), blk := .undef, res := .undef,
      responses := st.responses ++ List.replicate (s.length / 160 + 2) (okResponse []) } := by
  have hzero : (0 : Count).toNat = 0 := rfl
  obtain ⟨a, hrun, hpre, -⟩ := execAll_feed s ((beginComputation st).respond (okResponse [])) (Vector.replicate 160 0#8) 0
    rfl rfl rfl (by rwa [hzero, Nat.zero_add])
  refine ⟨a, by rw [hpre, preAcc_zero, zero_xorBlock], ?_⟩
  have hinit := exec_init_of_accepts ((acceptsInit_iff st.phase).2 hst)
  have hcount : (0 : Count) + BitVec.ofNat 64 s.length = BitVec.ofNat 64 s.length := BitVec.zero_add _
  rw [execAll_cons hinit, hrun, hcount, State.respond_responses, List.append_assoc]
  rfl

/-- The bytes of INIT and `FEED s` waiting at the port of an engine that accepts INIT, and no event to come: one step for each
command and the engine's three lead to `Done` with the digest (R272). -/
theorem run_init_feed {s : List Byte} {st : State} (hst : st.cleanEntry) (hm : s.length ≤ 2 ^ 64 - 1)
    (hport : st.port = portBytes (.init :: feed s)) (hin : st.input = []) :
    ∃ t : State, Host.Core.run Sys2Proof.core (3 + (Instr.init :: feed s).length) st = .next t ∧ t.phase = .done ∧
      t.res = .val (qxh .value s) ∧ t.undisturbed ∧
      t.responses = st.responses ++ List.replicate (s.length / 160 + 2) (okResponse []) := by
  obtain ⟨a, hpre, hfeed⟩ := execAll_init_feed_frame hst hm
  have hcommands := run_portBytes (init_feed_wellFormed s) 3 hport hfeed
  have hengine := hcommands.trans (run_finalizeSteps ⟨rfl, hin⟩ (execAll_finalizeSteps rfl rfl rfl))
  refine ⟨_, hengine, rfl, ?_, ⟨rfl, hin⟩, rfl⟩
  rw [qxh_eq_foldLength, ← hpre]
  rfl

/-- Settles O49: the bytes arrive in one step, and `run_init_feed` counts the others. -/
theorem undisturbedRunEndsCompleted : Obligations.UndisturbedRunEndsCompleted := by
  intro s st hst hm hport hin
  have harrive : step st = .next { st with input := [], port := portBytes (.init :: feed s) } := by
    rw [step_of_bytes_event (hport ▸ rfl) hin, hport, List.nil_append]
  have hsteps : s.length / 160 + 6 = 3 + (Instr.init :: feed s).length + 1 := by
    rw [List.length_cons, length_feed]
    omega
  rw [hsteps, core_run_succ _ harrive]
  exact run_init_feed hst hm rfl rfl

end Sys2Proof.Machine
